-- ==== Sys2Proof/Word.lean ====
section
/-! DEFINITION. The word and byte types of the engine (spec/00_scope.md R11, R13). -/

namespace Sys2Proof

/-- A *word*: "an unsigned 32-bit value in 0 .. 2^32 − 1" (R11). `+` on it is addition modulo 2^32 (R12, R74), and
`&&&`, `|||`, `^^^`, `~~~` are the bitwise operations of R75. -/
abbrev Word := BitVec 32

/-- A *byte*: "an unsigned 8-bit value" (R13). -/
abbrev Byte := BitVec 8

end Sys2Proof
end

