-- ==== Sys2Proof/Syntax.lean ====
section
/-! DEFINITION. The seven commands of the engine, one constructor per row of spec/opcode_table.json
(spec/30_encoding.md R54). -/

namespace Sys2Proof

/-- A command. Operands are plain numbers; `WellFormed.lean` bounds them to what the encoding admits (R53). -/
inductive Instr where
  /-- NOP, R103. -/
  | nop
  /-- INIT, R104. -/
  | init
  /-- ABSORB NB, R105: `nb` is NB, 1 to 4 message bytes. -/
  | absorb (nb : Nat)
  /-- FINISH, R106. -/
  | finish
  /-- LOADH i, R107: `i` is the index into H, 0 to 7. -/
  | loadh (i : Nat)
  /-- LOADM j, R108: `j` is the word index into BUF, 0 to 15. -/
  | loadm (j : Nat)
  /-- COMPRESS, R109. -/
  | compress
deriving DecidableEq, Repr

end Sys2Proof
end

