-- ==== Sys2Proof/WellFormed.lean ====
section
/-! DEFINITION. Which terms of `Instr` are commands: the operand ranges of spec/30_encoding.md R53 and R54. -/

namespace Sys2Proof

/-- The operand range of each command: NB is "an unsigned count from 1 to 4", `i` is 0 to 7 and `j` is 0 to 15
(R53, R58). -/
def Instr.wellFormed : Instr → Bool
  | .nop => true
  | .init => true
  | .absorb nb => decide (1 ≤ nb ∧ nb ≤ 4)
  | .finish => true
  | .loadh i => decide (i < 8)
  | .loadm j => decide (j < 16)
  | .compress => true

end Sys2Proof
end

