-- ==== Sys2Proof/Decode.lean ====
section
/-! DEFINITION. The decoder and the encoder of the command word (spec/30_encoding.md R52 to R57). -/

namespace Sys2Proof

/-- Why a command word is illegal: the bullets of R56 ("All illegal words behave alike"; the name is for a reader). -/
inductive Illegal where
  /-- "OP in 0x7 to 0xF". -/
  | opcode
  /-- "any bit of RSV (31:10) set". -/
  | reservedBits
  /-- "IDX not zero for NOP, INIT, ABSORB, FINISH or COMPRESS", or "IDX bit 7 set for LOADH". -/
  | index
  /-- "NBM1 not zero for any command but ABSORB". -/
  | byteCount
deriving DecidableEq, Repr

/-- What the decoder answers: a command, or a rejection by name. -/
inductive Decoded where
  | command (i : Instr)
  | illegal (why : Illegal)
deriving DecidableEq, Repr

/-- `OP = cmd[3:0]` (R53). -/
def opField (c : Word) : BitVec 4 := c.extractLsb' 0 4

/-- `IDX = cmd[7:4]` (R53). -/
def idxField (c : Word) : BitVec 4 := c.extractLsb' 4 4

/-- `NBM1 = cmd[9:8]` (R52). -/
def nbm1Field (c : Word) : BitVec 2 := c.extractLsb' 8 2

/-- `RSV = cmd[31:10]` (R52). -/
def rsvField (c : Word) : BitVec 22 := c.extractLsb' 10 22

/-- One row of the opcode map of R54. -/
structure Row where
  pattern : Word
  mask    : Word
deriving DecidableEq, Repr

/-- "A word `w` is command `X` exactly when `w AND mask(X) = match(X)`" (R54). -/
def Row.selects (r : Row) (w : Word) : Bool := w &&& r.mask == r.pattern

/-- The row of each command (R54). -/
def Instr.row : Instr → Row
  | .nop => ⟨0x00000000#32, 0xFFFFFFFF#32⟩
  | .init => ⟨0x00000001#32, 0xFFFFFFFF#32⟩
  | .absorb _ => ⟨0x00000002#32, 0xFFFFFCFF#32⟩
  | .finish => ⟨0x00000003#32, 0xFFFFFFFF#32⟩
  | .loadh _ => ⟨0x00000004#32, 0xFFFFFF8F#32⟩
  | .loadm _ => ⟨0x00000005#32, 0xFFFFFF0F#32⟩
  | .compress => ⟨0x00000006#32, 0xFFFFFFFF#32⟩

/-- The command that the OP of a word would name, with the operands its fields hold: `i = cmd[6:4]`, `j = cmd[7:4]`,
`NB = cmd[9:8] + 1` (R53). -/
def candidate (c : Word) : Option Instr :=
  match (opField c).toNat with
  | 0 => some .nop
  | 1 => some .init
  | 2 => some (.absorb ((nbm1Field c).toNat + 1))
  | 3 => some .finish
  | 4 => some (.loadh ((c.extractLsb' 4 3).toNat))
  | 5 => some (.loadm ((idxField c).toNat))
  | 6 => some .compress
  | _ => none

/-- Which bullet of R56 a word falls under, for a word that its own OP's row does not select. -/
def illegalReason (c : Word) : Illegal :=
  if rsvField c ≠ 0#22 then .reservedBits
  else if nbm1Field c ≠ 0#2 ∧ opField c ≠ 2#4 then .byteCount
  else .index

/-- The decoder: total on every word, rejecting by name. A word is the command of the row that selects it (R54); a word
that no row selects is illegal (R56). -/
def decode (c : Word) : Decoded :=
  match candidate c with
  | none => .illegal .opcode
  | some i => if i.row.selects c then .command i else .illegal (illegalReason c)

/-- A command word from its fields (R52), RSV zero. -/
def commandWord (op idx nbm1 : Nat) : Word :=
  BitVec.ofNat 32 op ||| (BitVec.ofNat 32 idx <<< 4) ||| (BitVec.ofNat 32 nbm1 <<< 8)

/-- The encoder: the word of a well-formed command, by R52, R53 and the encodings of R58. -/
def encode : Instr → Word
  | .nop => commandWord 0 0 0
  | .init => commandWord 1 0 0
  | .absorb nb => commandWord 2 0 (nb - 1)
  | .finish => commandWord 3 0 0
  | .loadh i => commandWord 4 i 0
  | .loadm j => commandWord 5 j 0
  | .compress => commandWord 6 0 0

/-- The instruction the decoder reads from a table word of `nbits` bits; a word with a bit above bit 31 is none, since
"no command is longer" (R52; log 16). -/
def decodeTableWord (nbits w : Nat) : Option Instr :=
  if w % 2 ^ nbits < 2 ^ 32 then
    match decode (BitVec.ofNat 32 (w % 2 ^ nbits)) with
    | .command i => some i
    | .illegal _ => none
  else none

end Sys2Proof
end

