-- ==== Sys2Proof/Config.lean ====
section
/-! DEFINITION. What a platform or an implementation fixes, and the free values. Every constant is opaque: no proof can
use its value. -/

namespace Sys2Proof

/-- Which multiple of 64 the window starts at. Open: `SHA_BASE` is "an OPEN parameter of the model that is a multiple
of 64" (R37; log 11). -/
opaque Config.shaBaseIndex : Nat

/-- `SHA_BASE`, the byte address of the register window, a multiple of 64 (R37). -/
def Config.shaBase : Nat := 64 * Config.shaBaseIndex

/-- `CYCLES_PER_BLOCK`: "an OPEN parameter and no rule depends on it" (R133). Nothing in the model reads it (log 13). -/
opaque Config.cyclesPerBlock : Nat

/-- `N_ENGINES`, the number of independent engines of a platform (R10, R126). The model is one of them; nothing reads it
(log 13). -/
opaque Config.nEngines : Nat

/-- FREE VALUE (log 4): word `i` of T outside a compression (R19, R35, U4), for the `n`-th time it became unspecified. -/
opaque Config.freeT : Nat → Nat → Word

/-- FREE VALUE (log 4): word `i` of W outside a compression (R20, R35, U4), for the `n`-th time it became unspecified. -/
opaque Config.freeW : Nat → Nat → Word

/-- FREE VALUE (log 7): SEQ's counter `t` on entering the `phase`-th phase, where the rule gives the phase alone, after T and W
became unspecified `n` times. -/
opaque Config.freeCounter : (n phase : Nat) → Fin 64

end Sys2Proof
end

