-- ==== Sys2Proof/Machine/State.lean ====
section
/-! DEFINITION. The state of one engine (spec/10_state.md R17) as plain data, the events of the host, the reasons a step
can stop, and the state right after reset (R35). -/

namespace Sys2Proof.Machine

/-- The phases of the micro-sequencer (R29). -/
inductive Phase where
  | idle
  | load
  | expand
  | round
  | fold
deriving DecidableEq, Repr

/-- The micro-sequencer position SEQ: "a phase in {IDLE, LOAD, EXPAND, ROUND, FOLD} and a round counter `t` in 0..63"
(R29). What `t` holds in a phase whose rule gives it no value is log 7. -/
structure Seq where
  phase : Phase
  t     : Fin 64
deriving DecidableEq, Repr

/-- The error codes of R111 that a command can record. -/
inductive ErrorCode where
  | illegalCommand
  | sequence
  | partialBlock
  | lengthOverflow
deriving DecidableEq, Repr

/-- A host access is a read, or a write of a word (R14). -/
inductive AccessOp where
  | read
  | write (v : Word)
deriving DecidableEq, Repr

/-- One host access. `width` is in bits. `disp` is the byte address accessed minus `SHA_BASE`, an integer, so that
`SHA_BASE` stays open (R37; log 11): the offset into the window when it is in 0 .. 63. -/
structure Access where
  op    : AccessOp
  width : Nat
  disp  : Int
deriving DecidableEq, Repr

/-- What the world outside can do to the engine (R4, R129). -/
inductive HostEvent where
  /-- A register access (R100, R101), performed as a whole (R42). -/
  | access (a : Access)
  /-- A write of `v` to CMD whose command reset cuts short after `n` of its micro-steps (R129; log 9). -/
  | commandCut (v : Word) (n : Nat)
  /-- Reset is asserted (R129). -/
  | resetAssert
  /-- Reset is released (log 8). -/
  | resetRelease
deriving DecidableEq, Repr

/-- The complete state of one engine (R17), then the model's own fields. -/
structure State where
  /-- H[0..7], the hash state (R18). -/
  h : Vector Word 8
  /-- T[0..7], the working registers (R19). -/
  t : Vector Word 8
  /-- W[0..63], the message schedule (R20). -/
  w : Vector Word 64
  /-- BUF[0..63], the block buffer (R23). -/
  buf : Vector Byte 64
  /-- BCNT, the bytes of the current streaming block (R24). -/
  bcnt : BitVec 6
  /-- LEN, the message bits absorbed (R25). -/
  len : BitVec 64
  /-- DIN, the data register (R26). -/
  din : Word
  /-- DONE (R27). -/
  done : Bool
  /-- ERR (R28). -/
  err : Bool
  /-- ECODE (R28, R111). -/
  ecode : BitVec 4
  /-- SEQ (R29). -/
  seq : Seq
  /-- MODEL'S OWN (log 1): host events that have arrived and wait, oldest first (R47). -/
  pending : List HostEvent
  /-- MODEL'S OWN (log 2): the words the host's reads have returned, oldest first (R101). -/
  results : List Word
  /-- MODEL'S OWN (log 8): reset is being asserted (R129). -/
  resetLine : Bool
  /-- MODEL'S OWN (log 5): how many times T and W became free values. -/
  freeCount : Nat
deriving DecidableEq, Repr

/-- Faults. No command of the engine raises one: both belong to the pure functions of Machine/Hash.lean. -/
inductive Fault where
  /-- Raised by `toWords` on a byte sequence whose length is not a multiple of 4 (R68, R117, U2). Safe: it stops. -/
  | invalidLength
  /-- Raised by `pad` and `messageHash` on a message of more than 2^61 − 1 bytes (R60, U1). Safe: it stops. -/
  | messageTooLong
deriving DecidableEq, Repr

/-- Refusals. No command of the engine raises one. -/
inductive Refusal where
  /-- An arm of `exec` without a meaning yet. No arm is one. Safe: it stops. -/
  | notModelled (mnemonic : String)
  /-- Raised by `step` on a host access that is not 32 bits wide (R41, U7). Safe: it stops. -/
  | accessWidth
  /-- Raised by `step` on a host access outside the 64-byte window (R37, R132). Safe: it stops. -/
  | accessOutsideWindow
  /-- Raised by `step` on a host access at an offset that is not a multiple of 4 (R41, U7). Safe: it stops. -/
  | accessMisaligned
  /-- Raised by `step` on a host access while reset is asserted (R129, U8). Safe: it stops. -/
  | accessDuringReset
  /-- Raised by the pure function `compress` on a word sequence whose length is not a multiple of 16 (R91, U3). Safe: it
  stops. -/
  | wordsNotWholeBlocks
deriving DecidableEq, Repr

/-- The machine right after reset (R35). T and W, which R35 leaves unspecified, are zero here (DESIGN CHOICE, unsafe,
log 3); no event has arrived, nothing has been read, reset is released. -/
def State.reset : State where
  h := IV
  t := Vector.replicate 8 0#32
  w := Vector.replicate 64 0#32
  buf := Vector.replicate 64 0#8
  bcnt := 0#6
  len := 0#64
  din := 0#32
  done := false
  err := false
  ecode := 0#4
  seq := ⟨.idle, 0⟩
  pending := []
  results := []
  resetLine := false
  freeCount := 0

end Sys2Proof.Machine
end

