-- ==== Sys2Proof/Machine/Flags.lean ====
section
/-! DEFINITION. The flags DONE and ERR, the error code and the STATUS word (spec/10_state.md R27, R28, R32, R34;
spec/60_exceptions.md R111), and each command's own error check (R114 to R116). No arithmetic sets a flag (R34). -/

namespace Sys2Proof.Machine

/-- The value recorded in ECODE (R111). -/
def ErrorCode.bits : ErrorCode → BitVec 4
  | .illegalCommand => 1#4
  | .sequence => 2#4
  | .partialBlock => 3#4
  | .lengthOverflow => 4#4

/-- `STATUS = DONE | (ERR << 1) | (ECODE << 4) | (BCNT << 8)` (R32). -/
def statusWord (s : State) : Word :=
  (BitVec.ofBool s.done).setWidth 32 ||| ((BitVec.ofBool s.err).setWidth 32 <<< 1)
    ||| (s.ecode.setWidth 32 <<< 4) ||| (s.bcnt.setWidth 32 <<< 8)

/-- ABSORB's own checks, in order: SEQUENCE (R114), then LENGTH_OVERFLOW, `LEN + 8·NB > 2^64 − 1` (R116, R118). -/
def absorbError (nb : Nat) (s : State) : Option ErrorCode :=
  if s.done then some .sequence
  else if s.len.toNat + 8 * nb > 2 ^ 64 - 1 then some .lengthOverflow
  else none

/-- FINISH's own check (R114). -/
def finishError (s : State) : Option ErrorCode := if s.done then some .sequence else none

/-- The own check of LOADM and COMPRESS (R115). -/
def rawError (s : State) : Option ErrorCode := if s.bcnt ≠ 0#6 then some .partialBlock else none

end Sys2Proof.Machine
end

