-- ==== Sys2Proof/Machine/Operands.lean ====
section
/-! DEFINITION. Where operands come from: the big-endian byte lanes (spec/20_memory.md R39), the block words of BUF
(spec/41_word_parsing.md R71, R72), the window slots (spec/10_state.md R31) and the checks on a host access (R37, R41). -/

namespace Sys2Proof.Machine

/-- Byte lane `k` of a word, `v[31 − 8k : 24 − 8k]` (R39): lane 0 is the most significant byte. -/
def lane (v : Word) (k : Nat) : Byte := v.extractLsb' (24 - 8 * k) 8

/-- `be32(b0, b1, b2, b3)`, first byte most significant (R13). -/
def be32 (b0 b1 b2 b3 : Byte) : Word := b0 ++ b1 ++ b2 ++ b3

/-- Byte `k` of `be64bytes(v)`, `v[63 − 8k : 56 − 8k]` (R60, R66). -/
def lenByte (v : BitVec 64) (k : Nat) : Byte := v.extractLsb' (56 - 8 * k) 8

/-- Word `j` of the block in BUF, `be32(BUF[4j], BUF[4j+1], BUF[4j+2], BUF[4j+3])` (R71). -/
def blockWord (buf : Vector Byte 64) (j : Fin 16) : Word :=
  be32 buf[4 * j.val] buf[4 * j.val + 1] buf[4 * j.val + 2] buf[4 * j.val + 3]

/-- `toWords(BUF[0..63])`, the 16 words one compression reads (R71). -/
def blockWords (buf : Vector Byte 64) : Vector Word 16 := Vector.ofFn (blockWord buf)

/-- BUF with word `j` replaced: `BUF[4j + k] <- v[31 − 8k : 24 − 8k]` for k in 0..3 (R108). -/
def storeBlockWord (j : Nat) (v : Word) (buf : Vector Byte 64) : Vector Byte 64 :=
  Vector.ofFn fun n => if n.val / 4 = j then lane v (n.val % 4) else buf[n]

/-- BUF with 0x00 in the bytes from `lo` up to, not including, `hi` (R66). -/
def zeroBytes (lo hi : Nat) (buf : Vector Byte 64) : Vector Byte 64 :=
  Vector.ofFn fun n => if lo ≤ n.val ∧ n.val < hi then 0#8 else buf[n]

/-- BUF with the length field in its last 8 bytes: `BUF[56 + k] <- LEN[63 − 8k : 56 − 8k]` for k in 0..7 (R66). -/
def putLength (len : BitVec 64) (buf : Vector Byte 64) : Vector Byte 64 :=
  Vector.ofFn fun n => if 56 ≤ n.val then lenByte len (n.val - 56) else buf[n]

/-- The registers of the window (R31). -/
inductive Slot where
  | cmd
  | din
  | status
  | lenlo
  | lenhi
  | reserved
  | hash (i : Fin 8)
deriving DecidableEq, Repr

/-- The register at a word-aligned offset of the window (R31); none for any other offset. -/
def slotAt (off : Nat) : Option Slot :=
  match off with
  | 0x00 => some .cmd
  | 0x04 => some .din
  | 0x08 => some .status
  | 0x0C => some .lenlo
  | 0x10 => some .lenhi
  | 0x14 => some .reserved
  | 0x18 => some .reserved
  | 0x1C => some .reserved
  | 0x20 => some (.hash 0)
  | 0x24 => some (.hash 1)
  | 0x28 => some (.hash 2)
  | 0x2C => some (.hash 3)
  | 0x30 => some (.hash 4)
  | 0x34 => some (.hash 5)
  | 0x38 => some (.hash 6)
  | 0x3C => some (.hash 7)
  | _ => none

/-- A host access of `width` bits at byte address `a` of the platform (R37): the model holds `a − SHA_BASE`. -/
def accessAt (a : Nat) (width : Nat) (op : AccessOp) : Access := ⟨op, width, (a : Int) - (Config.shaBase : Int)⟩

/-- A 32-bit access at offset `off` of the window, `RegRead(off)` or `RegWrite(off, v)` (R14). -/
def accessOffset (off : Nat) (op : AccessOp) : Access := ⟨op, 32, (off : Int)⟩

/-- The register a host access reaches, or why the model refuses it: it is not 32 bits wide, it lies outside the window,
or its offset is not a multiple of 4 (R37, R41, R132; log 10 for the order of the names). -/
def accessSlot (a : Access) : Except Refusal Slot :=
  if a.width ≠ 32 then .error .accessWidth
  else if a.disp < 0 ∨ 64 ≤ a.disp then .error .accessOutsideWindow
  else
    match slotAt a.disp.toNat with
    | none => .error .accessMisaligned
    | some r => .ok r

end Sys2Proof.Machine
end

