-- ==== Sys2Proof/Machine/Ops.lean ====
section
/-! DEFINITION. The named operations over the state that the commands share: recording an error and leaving the error
state (spec/60_exceptions.md R112, R119, R120), the order of the checks (R118), the message reset of INIT and reset
(spec/44_commands.md R104, spec/70_reset_and_hazards.md R129), and the register updates. -/

namespace Sys2Proof.Machine

/-- The outcome of a step of this machine. -/
abbrev Result := Host.Outcome State Fault Refusal

/-- `raise Error(code)` (R112), the engine's form of taking an exception (R119): the first error is kept, no pc is saved
and nothing jumps. -/
def raiseError (code : ErrorCode) (s : State) : State :=
  if s.err then s else { s with err := true, ecode := code.bits }

/-- Leaving the error state (R120): "INIT and reset clear ERR and ECODE". -/
def clearError (s : State) : State := { s with err := false, ecode := 0#4 }

/-- One command after decoding, with the stops in the order of R102 and R118: legality (`legal` is false only for a term
of `Instr` that has no encoding, log 6), the error gate of R119, the command's own check, and then its effect. -/
def command (legal : Bool) (error : State → Option ErrorCode) (run : State → State) (s : State) : State :=
  if !legal then raiseError .illegalCommand s
  else if s.err then s
  else
    match error s with
    | some code => raiseError code s
    | none => run s

/-- A command with no check of its own. -/
def noError (_ : State) : Option ErrorCode := none

/-- What INIT and reset do to the message state (R104, R129): H, BUF, BCNT, LEN, DONE, and the error state. -/
def startMessage (s : State) : State :=
  clearError { s with h := IV, buf := Vector.replicate 64 0#8, bcnt := 0#6, len := 0#64, done := false }

/-- The place of a phase in R29's list: which free value its counter is (log 7). -/
def phaseNumber : Phase → Nat
  | .idle => 0
  | .load => 1
  | .expand => 2
  | .round => 3
  | .fold => 4

/-- The position on entering a phase whose rule writes the phase and says nothing of the counter `t`: `t` is a free value
(R29, R87 to R89; log 7). -/
def enterPhase (p : Phase) (s : State) : Seq := ⟨p, Config.freeCounter s.freeCount (phaseNumber p)⟩

/-- T and W become unspecified (R19, R20, R35, U4): each word is a free value (log 4). -/
def discardScratch (s : State) : State :=
  { s with
    t := Vector.ofFn fun i => Config.freeT s.freeCount i.val
    w := Vector.ofFn fun i => Config.freeW s.freeCount i.val
    freeCount := s.freeCount + 1 }

/-- The reset event (R129): "abandon any COMPRESSION in progress", the message state, DIN, and unspecified T and W. -/
def applyReset (s : State) : State := discardScratch { startMessage s with din := 0#32, seq := ⟨.idle, 0⟩ }

/-- `H[i] <- v` (R107). -/
def setHashWord (i : Nat) (v : Word) (s : State) : State := { s with h := s.h.setIfInBounds i v }

/-- `BUF[4j + k] <- v[31 − 8k : 24 − 8k]` for k in 0..3 (R108). -/
def setBlockWord (j : Nat) (v : Word) (s : State) : State := { s with buf := storeBlockWord j v s.buf }

/-- The store of one absorbed byte: `BUF[BCNT] <- b; LEN <- LEN + 8` (R105). -/
def putByte (b : Byte) (s : State) : State :=
  { s with buf := s.buf.set s.bcnt.toNat b s.bcnt.isLt, len := s.len + 8#64 }

end Sys2Proof.Machine
end

