-- ==== Sys2Proof/Machine/Control.lean ====
section
/-! DEFINITION. The control commands NOP and INIT (spec/44_commands.md R103, R104). -/

namespace Sys2Proof.Machine

/-- NOP (R103): nothing. -/
def execNop (s : State) : Result := .next (command true noError id s)

/-- INIT (R104): a new message. It is the one command the error gate lets through (R119), and it has no check of its
own; DIN keeps its value. -/
def execInit (s : State) : Result := .next (startMessage s)

end Sys2Proof.Machine
end

