-- ==== Sys2Proof/Machine/Datapath.lean ====
section
/-! DEFINITION. The 32-bit operations of the datapath (spec/42_compression.md R73 to R83). Addition, XOR, AND, OR and NOT
are those of the word type: `+` wraps modulo 2^32 and no operation sets a flag or raises an error (R73 to R75). -/

namespace Sys2Proof.Machine

/-- Logical right shift `x >> n` (R76). -/
def shr (x : Word) (n : Nat) : Word := x >>> n

/-- `rotr(x, n) = (x >> n) OR ((x << (32 − n)) mod 2^32)` (R77). -/
def rotr (x : Word) (n : Nat) : Word := (x >>> n) ||| (x <<< (32 - n))

/-- `Ch(x, y, z) = (x AND y) OR ((NOT x) AND z)` (R78). -/
def ch (x y z : Word) : Word := (x &&& y) ||| (~~~x &&& z)

/-- `Maj(x, y, z) = (x AND y) OR (x AND z) OR (y AND z)` (R79). -/
def maj (x y z : Word) : Word := (x &&& y) ||| (x &&& z) ||| (y &&& z)

/-- `Σ0` (R80). -/
def bigSigma0 (x : Word) : Word := rotr x 2 ^^^ rotr x 13 ^^^ rotr x 22

/-- `Σ1` (R81). -/
def bigSigma1 (x : Word) : Word := rotr x 6 ^^^ rotr x 11 ^^^ rotr x 25

/-- `σ0` (R82). -/
def smallSigma0 (x : Word) : Word := rotr x 7 ^^^ rotr x 18 ^^^ shr x 3

/-- `σ1` (R83). -/
def smallSigma1 (x : Word) : Word := rotr x 17 ^^^ rotr x 19 ^^^ shr x 10

/-- The word EXPAND t writes, from W[t−2], W[t−7], W[t−15] and W[t−16] (R86). -/
def scheduleWord (w2 w7 w15 w16 : Word) : Word := smallSigma1 w2 + w7 + smallSigma0 w15 + w16

/-- The working registers after one round with round constant `k` and schedule word `w` (R87). Every right-hand side
reads the old T: the shift is simultaneous (90_conflicts.md C1). -/
def mixRound (t : Vector Word 8) (k w : Word) : Vector Word 8 :=
  let t1 := t[7] + bigSigma1 t[4] + ch t[4] t[5] t[6] + k + w
  let t2 := bigSigma0 t[0] + maj t[0] t[1] t[2]
  #v[t1 + t2, t[0], t[1], t[2], t[3] + t1, t[4], t[5], t[6]]

/-- `H[i] + T[i]` for each `i` in 0..7, no carry between words (R88). -/
def foldWords (h t : Vector Word 8) : Vector Word 8 := Vector.ofFn fun i => h[i] + t[i]

end Sys2Proof.Machine
end

