-- ==== Sys2Proof/Machine/Compression.lean ====
section
/-! DEFINITION. The micro-sequencer and one COMPRESSION (spec/42_compression.md R85 to R89). -/

namespace Sys2Proof.Machine

/-- LOAD (R85): W[0..15] take the block words, T takes H; the next micro-step is EXPAND 16. -/
def loadStep (s : State) : State :=
  { s with
    w := Vector.ofFn fun n => if hn : n.val < 16 then blockWord s.buf ⟨n.val, hn⟩ else s.w[n]
    t := s.h
    seq := ⟨.expand, 16⟩ }

/-- EXPAND t, for t = 16 to 63 (R86). No rule moves SEQ to EXPAND with a `t` below 16, and none says what that would do: the
state stays as it is (log 7). -/
def expandStep (t : Fin 64) (s : State) : State :=
  if _h : 16 ≤ t.val then
    { s with
      w := s.w.set t.val
        (scheduleWord s.w[t.val - 2] s.w[t.val - 7] s.w[t.val - 15] s.w[t.val - 16])
      seq := if ht : t.val + 1 < 64 then ⟨.expand, ⟨t.val + 1, ht⟩⟩ else ⟨.round, 0⟩ }
  else s

/-- ROUND t (R87); after t = 63 the rule gives the phase FOLD alone (log 7). -/
def roundStep (t : Fin 64) (s : State) : State :=
  { s with
    t := mixRound s.t K[t] s.w[t]
    seq := if ht : t.val + 1 < 64 then ⟨.round, ⟨t.val + 1, ht⟩⟩ else enterPhase .fold s }

/-- FOLD (R88): H accumulates T and the sequencer is idle. T and W are then "discarded after being folded back into H"
(R19) and unspecified until the next LOAD (U4; log 4); the rule gives SEQ's phase alone (log 7). -/
def foldStep (s : State) : State := discardScratch { s with h := foldWords s.h s.t, seq := enterPhase .idle s }

/-- The micro-step that SEQ names (R29, R89); none when it is IDLE. -/
def microStep (s : State) : State :=
  match s.seq.phase with
  | .idle => s
  | .load => loadStep s
  | .expand => expandStep s.seq.t s
  | .round => roundStep s.seq.t s
  | .fold => foldStep s

/-- `n` micro-steps. -/
def microSteps : Nat → State → State
  | 0, s => s
  | n + 1, s => microSteps n (microStep s)

/-- How many micro-steps one compression has: LOAD, 48 EXPANDs, 64 ROUNDs, FOLD (R89). -/
def compressionSteps : Nat := 1 + 48 + 64 + 1

/-- The sequencer leaves IDLE for the first micro-step of a compression, LOAD (R29, R89; log 7 for the counter). -/
def startCompression (s : State) : State := { s with seq := enterPhase .load s }

/-- COMPRESSION (R89): the fixed list of micro-steps from IDLE back to IDLE. -/
def compression (s : State) : State := microSteps compressionSteps (startCompression s)

end Sys2Proof.Machine
end

