-- ==== Sys2Proof/Machine/Raw.lean ====
section
/-! DEFINITION. Raw mode: LOADH, LOADM and COMPRESS (spec/44_commands.md R107 to R109). -/

namespace Sys2Proof.Machine

/-- LOADH i (R107): `H[i] <- DIN`, at any BCNT and any DONE. -/
def execLoadh (i : Nat) (s : State) : Result :=
  .next (command (decide (i < 8)) noError (fun s => setHashWord i s.din s) s)

/-- LOADM j (R108). -/
def execLoadm (j : Nat) (s : State) : Result :=
  .next (command (decide (j < 16)) rawError (fun s => setBlockWord j s.din s) s)

/-- COMPRESS (R109). -/
def execCompress (s : State) : Result := .next (command true rawError compression s)

end Sys2Proof.Machine
end

