-- ==== Sys2Proof/Machine/Streaming.lean ====
section
/-! DEFINITION. Streaming mode: ABSORB (spec/44_commands.md R105), and FINISH (R106) with its padder step PADTAIL
(spec/40_padding.md R66). -/

namespace Sys2Proof.Machine

/-- What follows the store of a byte in R105 when it does not fill BUF. -/
def countByte (s : State) : State := { s with bcnt := s.bcnt + 1#6 }

/-- `BCNT <- 0` (R105, R106). -/
def clearCount (s : State) : State := { s with bcnt := 0#6 }

/-- One turn of ABSORB's loop (R105): store lane `k` of DIN, and compress when it is the 64th byte of the block. -/
def absorbByte (k : Nat) (s : State) : State :=
  if s.bcnt = 63#6 then clearCount (compression (putByte (lane s.din k) s))
  else countByte (putByte (lane s.din k) s)

/-- ABSORB's loop over the lanes `k`, `k + 1`, …, `n` of them (R105). -/
def absorbBytes : (n k : Nat) → State → State
  | 0, _, s => s
  | n + 1, k, s => absorbBytes n (k + 1) (absorbByte k s)

/-- ABSORB NB (R105). -/
def execAbsorb (nb : Nat) (s : State) : Result :=
  .next (command (decide (1 ≤ nb ∧ nb ≤ 4)) (absorbError nb) (absorbBytes nb 0) s)

/-- `BUF[BCNT] <- 0x80`, the terminator (R62, R66). -/
def putTerminator (s : State) : State := { s with buf := s.buf.set s.bcnt.toNat 0x80#8 s.bcnt.isLt }

/-- PADTAIL's first writes (R66): the terminator, then zeros up to the length field when it fits in this block
(`b <= 55`), else up to the end of the block. -/
def padFirst (s : State) : State :=
  let p := putTerminator s
  { p with buf := zeroBytes (s.bcnt.toNat + 1) (if s.bcnt.toNat ≤ 55 then 56 else 64) p.buf }

/-- PADTAIL's `for k in 0 .. 55: BUF[k] <- 0x00` after the first of two compressions (R66). -/
def clearForLength (s : State) : State := { s with buf := zeroBytes 0 56 s.buf }

/-- PADTAIL's length field (R66). -/
def writeLength (s : State) : State := { s with buf := putLength s.len s.buf }

/-- PADTAIL (R66): one compression if `BCNT <= 55`, two otherwise. -/
def padtail (s : State) : State :=
  if s.bcnt.toNat ≤ 55 then compression (writeLength (padFirst s))
  else compression (writeLength (clearForLength (compression (padFirst s))))

/-- `BCNT <- 0; DONE <- 1` (R106). -/
def closeMessage (s : State) : State := { s with bcnt := 0#6, done := true }

/-- FINISH (R106). -/
def execFinish (s : State) : Result :=
  .next (command true finishError (fun s => closeMessage (padtail s)) s)

end Sys2Proof.Machine
end

