-- ==== Sys2Proof/Machine/Dispatch.lean ====
section
/-! DEFINITION. One arm per command. -/

namespace Sys2Proof.Machine

def exec (i : Instr) (s : State) : Host.Outcome State Fault Refusal :=
  match i with
  | .nop => Sys2Proof.Machine.execNop s
  | .init => Sys2Proof.Machine.execInit s
  | .absorb nb => Sys2Proof.Machine.execAbsorb nb s
  | .finish => Sys2Proof.Machine.execFinish s
  | .loadh k => Sys2Proof.Machine.execLoadh k s
  | .loadm j => Sys2Proof.Machine.execLoadm j s
  | .compress => Sys2Proof.Machine.execCompress s

end Sys2Proof.Machine
end

