-- ==== Sys2Proof/Machine/Micro.lean ====
section
/-! DEFINITION. A command seen micro-step by micro-step: what reset interrupts (spec/70_reset_and_hazards.md R129) and
what R133 counts. `exec` runs the same command as one step (spec/20_memory.md R42). -/

namespace Sys2Proof.Machine

/-- What a command still has to do when the compression in progress is over. It is fixed by the command and its
pseudocode, and it is no state between commands (R17). -/
inductive Rest where
  /-- COMPRESS ends (R109). -/
  | nothing
  /-- ABSORB sets BCNT to 0 and goes on with lane `k`, `n` lanes in all (R105). -/
  | absorb (k n : Nat)
  /-- PADTAIL writes the block with the length field and compresses again (R66). -/
  | finishSecond
  /-- FINISH sets BCNT and DONE (R106). -/
  | finishLast
deriving DecidableEq, Repr

/-- A command in progress: the state now, and what is left after the running compression; `none` when it is over. -/
structure Running where
  now  : State
  rest : Option Rest
deriving DecidableEq, Repr

/-- ABSORB's loop up to the byte that fills BUF, or to its end (R105). -/
def absorbRun : (n k : Nat) → State → Running
  | 0, _, s => ⟨s, none⟩
  | n + 1, k, s =>
    if s.bcnt = 63#6 then ⟨startCompression (putByte (lane s.din k) s), some (.absorb (k + 1) n)⟩
    else absorbRun n (k + 1) (countByte (putByte (lane s.din k) s))

/-- What a command does between the end of one compression and the start of the next, or its own end. -/
def resume : Rest → State → Running
  | .nothing, s => ⟨s, none⟩
  | .absorb k n, s => absorbRun n k (clearCount s)
  | .finishSecond, s => ⟨startCompression (writeLength (clearForLength s)), some .finishLast⟩
  | .finishLast, s => ⟨closeMessage s, none⟩

/-- The checks of a command let it have its effect (R118). -/
def goesAhead (error : State → Option ErrorCode) (s : State) : Bool := !s.err && (error s).isNone

/-- A command up to its first micro-step, or to its end if it has none. -/
def beginCommand (i : Instr) (s : State) : Running :=
  match i with
  | .nop => ⟨command true noError id s, none⟩
  | .init => ⟨startMessage s, none⟩
  | .absorb nb =>
    if decide (1 ≤ nb ∧ nb ≤ 4) && goesAhead (absorbError nb) s then absorbRun nb 0 s
    else ⟨command (decide (1 ≤ nb ∧ nb ≤ 4)) (absorbError nb) id s, none⟩
  | .finish =>
    if goesAhead finishError s then
      if s.bcnt.toNat ≤ 55 then ⟨startCompression (writeLength (padFirst s)), some .finishLast⟩
      else ⟨startCompression (padFirst s), some .finishSecond⟩
    else ⟨command true finishError id s, none⟩
  | .loadh i => ⟨command (decide (i < 8)) noError (fun s => setHashWord i s.din s) s, none⟩
  | .loadm j => ⟨command (decide (j < 16)) rawError (fun s => setBlockWord j s.din s) s, none⟩
  | .compress =>
    if goesAhead rawError s then ⟨startCompression s, some .nothing⟩
    else ⟨command true rawError id s, none⟩

/-- One micro-step of a command in progress, and, when it ends a compression, what follows it. -/
def tick (r : Running) : Running :=
  match r.rest with
  | none => r
  | some rest =>
    if (microStep r.now).seq.phase = .idle then resume rest (microStep r.now) else ⟨microStep r.now, some rest⟩

/-- `n` micro-steps of a command in progress. -/
def ticks : Nat → Running → Running
  | 0, r => r
  | n + 1, r => ticks n (tick r)

/-- How many micro-steps a command takes: "ABSORB takes 0 or 114, FINISH takes 114 or 228, COMPRESS takes 114, and NOP,
INIT, LOADH and LOADM take 0" (R133); a command that an error or the gate stops takes none. -/
def microStepCount (i : Instr) (s : State) : Nat :=
  match i with
  | .nop => 0
  | .init => 0
  | .absorb nb =>
    if decide (1 ≤ nb ∧ nb ≤ 4) && goesAhead (absorbError nb) s && decide (64 ≤ s.bcnt.toNat + nb) then 114 else 0
  | .finish => if goesAhead finishError s then (if s.bcnt.toNat ≤ 55 then 114 else 228) else 0
  | .loadh _ => 0
  | .loadm _ => 0
  | .compress => if goesAhead rawError s then 114 else 0

/-- The state `n` micro-steps into the command that a write of `v` to CMD starts (R102, R129). -/
def cutState (v : Word) (n : Nat) (s : State) : State :=
  match decode v with
  | .illegal _ => raiseError .illegalCommand s
  | .command i => (ticks n (beginCommand i s)).now

end Sys2Proof.Machine
end

