-- ==== Sys2Proof/Machine/Bus.lean ====
section
/-! DEFINITION. The host's side of the engine: DISPATCH, RegWrite and RegRead (spec/44_commands.md R100 to R102), the
events of the host (spec/70_reset_and_hazards.md R129) and the order in which they are performed (spec/20_memory.md R47). -/

namespace Sys2Proof.Machine

/-- `DISPATCH(c)` (R102): an illegal word raises ILLEGAL_COMMAND (R113); a legal one runs its command, whose meaning
begins with the error gate (R119). -/
def dispatchWord (c : Word) (s : State) : Result :=
  match decode c with
  | .illegal _ => .next (raiseError .illegalCommand s)
  | .command i => exec i s

/-- `RegWrite(off, v)` (R100): writes to read-only and reserved registers are ignored (R44). -/
def regWrite (r : Slot) (v : Word) (s : State) : Result :=
  match r with
  | .cmd => dispatchWord v s
  | .din => .next { s with din := v }
  | .status => .next s
  | .lenlo => .next s
  | .lenhi => .next s
  | .reserved => .next s
  | .hash _ => .next s

/-- `RegRead(off)` (R101): the word read; it changes no state. -/
def regRead (r : Slot) (s : State) : Word :=
  match r with
  | .cmd => 0#32
  | .din => s.din
  | .status => statusWord s
  | .lenlo => s.len.extractLsb' 0 32
  | .lenhi => s.len.extractLsb' 32 32
  | .reserved => 0#32
  | .hash i => s.h[i]

/-- The host has read the word `v` (log 2). -/
def noteResult (v : Word) (s : State) : State := { s with results := s.results ++ [v] }

/-- One host access to a register of the window (R100, R101). -/
def regAccess (op : AccessOp) (r : Slot) (s : State) : Result :=
  match op with
  | .read => .next (noteResult (regRead r s) s)
  | .write v => regWrite r v s

/-- One host access (R41, R129): refused while reset is asserted (U8) and outside the interface (U7). -/
def performAccess (a : Access) (s : State) : Result :=
  if s.resetLine then .refused .accessDuringReset
  else
    match accessSlot a with
    | .error r => .refused r
    | .ok r => regAccess a.op r s

/-- Reset is asserted (R129; log 8). DESIGN CHOICE (log 20): R47 and R129 do not say what becomes of the host accesses that are
held behind a command when reset comes; the model keeps `pending`, and `results`, as they are. -/
def assertReset (s : State) : State := { applyReset s with resetLine := true }

/-- One host event. -/
def perform (e : HostEvent) (s : State) : Result :=
  match e with
  | .access a => performAccess a s
  | .commandCut v n => if s.resetLine then .refused .accessDuringReset else .next (assertReset (cutState v n s))
  | .resetAssert => .next (assertReset s)
  | .resetRelease => .next { s with resetLine := false }

/-- The events still to come, with the first taken off. -/
def State.setPending (s : State) (es : List HostEvent) : State := { s with pending := es }

/-- One step of the machine: the oldest event that has arrived is performed (R47); with none, the engine stays as it is
(log 1). Where SEQ is not IDLE, which no run leaves between two steps (R29), the micro-step it names runs and host
accesses are held (R47), but reset comes at once (R129; log 18). -/
def serve (s : State) : Result :=
  if s.seq.phase = .idle then
    match s.pending with
    | [] => .next s
    | e :: es => perform e (s.setPending es)
  else
    match s.pending with
    | .resetAssert :: es => .next (assertReset (s.setPending es))
    | _ => .next (microStep s)

/-- A write of a 32-bit word at offset `off` of the window. -/
def writeEvent (off : Nat) (v : Word) : HostEvent := .access (accessOffset off (.write v))

/-- A 32-bit read at offset `off` of the window. -/
def readEvent (off : Nat) : HostEvent := .access (accessOffset off .read)

/-- The host's write of a command word to CMD (R50, R52). -/
def commandEvent (c : Word) : HostEvent := writeEvent 0x00 c

/-- The command word `c` as the very next thing the engine performs (log 16). -/
def offerCommand (c : Word) (s : State) : State :=
  { s with seq := { s.seq with phase := .idle }, resetLine := false, pending := commandEvent c :: s.pending }

end Sys2Proof.Machine
end

