-- ==== Sys2Proof/Machine/Step.lean ====
section
/-! DEFINITION. The step of the machine, and how a command is placed where the next step takes it from (log 16). -/

namespace Sys2Proof.Machine

/-- One step: the oldest host event (spec/20_memory.md R47). -/
def step (s : State) : Host.Outcome State Fault Refusal := serve s

/-- `s` with the host's write of the command word at the head of the waiting events, the sequencer idle and reset
released, so that the very next step runs exactly it (log 16). -/
def State.withFetchWord (s : State) (nbits w : Nat) : State :=
  offerCommand (BitVec.ofNat 32 (w % 2 ^ nbits)) s

end Sys2Proof.Machine
end

