-- ==== Sys2Proof/Machine/Assembler.lean ====
section
/-! DEFINITION. The notation of host programs (spec/30_encoding.md R58, R59): a line as data, the host accesses it stands
for, and the reading of its text (log 17). -/

namespace Sys2Proof.Machine

/-- REG, "one of `CMD DIN STATUS LENLO LENHI H0 H1 H2 H3 H4 H5 H6 H7`" (R58). -/
inductive Reg where
  | cmd
  | din
  | status
  | lenlo
  | lenhi
  | h (i : Fin 8)
deriving DecidableEq, Repr

/-- The offset of a register (R31). -/
def Reg.offset : Reg → Nat
  | .cmd => 0x00
  | .din => 0x04
  | .status => 0x08
  | .lenlo => 0x0C
  | .lenhi => 0x10
  | .h i => 0x20 + 4 * i.val

/-- One line of a host program: the syntax of R58 and the pseudo-instructions of R59. -/
inductive Line where
  /-- `wr REG, imm32`. -/
  | wr (r : Reg) (v : Word)
  /-- `rd REG`. -/
  | rd (r : Reg)
  /-- A command by its mnemonic: `nop`, `init`, `absorb NB`, `finish`, `loadh i`, `loadm j`, `compress`. -/
  | instr (i : Instr)
  /-- `.cmd imm32`. -/
  | cmd (v : Word)
  /-- `absorbw imm32, NB`. -/
  | absorbw (v : Word) (nb : Nat)
  /-- `setH i, imm32`. -/
  | setH (i : Nat) (v : Word)
  /-- `setM j, imm32`. -/
  | setM (j : Nat) (v : Word)
  /-- `digest`. -/
  | digest
  /-- `wait_done`. -/
  | waitDone
deriving DecidableEq, Repr

/-- The line's expansion into host accesses, in order (R58, R59). -/
def Line.events : Line → List HostEvent
  | .wr r v => [writeEvent r.offset v]
  | .rd r => [readEvent r.offset]
  | .instr i => [commandEvent (encode i)]
  | .cmd v => [commandEvent v]
  | .absorbw v nb => [writeEvent 0x04 v, commandEvent (encode (.absorb nb))]
  | .setH i v => [writeEvent 0x04 v, commandEvent (encode (.loadh i))]
  | .setM j v => [writeEvent 0x04 v, commandEvent (encode (.loadm j))]
  | .digest => (List.range 7).map fun i => readEvent (0x20 + 4 * i)
  | .waitDone => [readEvent 0x08]

/-- A program's host accesses, line by line. -/
def programEvents (p : List Line) : List HostEvent := p.flatMap Line.events

/-- The text of a line without its comment: "`;` starts a comment" (R58). -/
def dropComment (cs : List Char) : List Char := cs.takeWhile (· ≠ ';')

/-- Space, tab, carriage return and the operand comma separate tokens (log 17). -/
def isSeparator (c : Char) : Bool := c == ' ' || c == '\t' || c == '\r' || c == ','

/-- The tokens of a line; `current` is the token being read, its last character first. -/
def tokens : (current : List Char) → List Char → List (List Char)
  | [], [] => []
  | current, [] => [current.reverse]
  | current, c :: cs =>
    if isSeparator c then
      match current with
      | [] => tokens [] cs
      | _ => current.reverse :: tokens [] cs
    else tokens (c :: current) cs

/-- The value of a digit character, decimal or hexadecimal. -/
def digitValue (c : Char) : Option Nat :=
  if '0' ≤ c ∧ c ≤ '9' then some (c.toNat - 48)
  else if 'a' ≤ c ∧ c ≤ 'f' then some (c.toNat - 87)
  else if 'A' ≤ c ∧ c ≤ 'F' then some (c.toNat - 55)
  else none

/-- The value of a digit string in a base, most significant digit first. -/
def digitsValue (base : Nat) : (acc : Nat) → List Char → Option Nat
  | acc, [] => some acc
  | acc, c :: cs =>
    match digitValue c with
    | none => none
    | some d => if d < base then digitsValue base (acc * base + d) cs else none

/-- "a number is decimal or `0x` hexadecimal" (R58). -/
def number (cs : List Char) : Option Nat :=
  match cs with
  | [] => none
  | ['0', 'x'] => none
  | '0' :: 'x' :: ds => digitsValue 16 0 ds
  | ds => digitsValue 10 0 ds

/-- An `imm32`. -/
def imm32 (cs : List Char) : Option Word :=
  match number cs with
  | none => none
  | some n => if n < 2 ^ 32 then some (BitVec.ofNat 32 n) else none

/-- A register name (R58). -/
def register (cs : List Char) : Option Reg :=
  match cs with
  | ['C', 'M', 'D'] => some .cmd
  | ['D', 'I', 'N'] => some .din
  | ['S', 'T', 'A', 'T', 'U', 'S'] => some .status
  | ['L', 'E', 'N', 'L', 'O'] => some .lenlo
  | ['L', 'E', 'N', 'H', 'I'] => some .lenhi
  | ['H', d] =>
    match digitValue d with
    | none => none
    | some i => if hi : i < 8 then some (.h ⟨i, hi⟩) else none
  | _ => none

/-- A command whose operand is in the range R58 gives it. -/
def checked (i : Instr) : Option Line := if i.wellFormed then some (.instr i) else none

/-- The line that a mnemonic, in lower case ("Mnemonics are case-insensitive", R58), and its operands stand for. -/
def lineOf (mnemonic : List Char) (operands : List (List Char)) : Option Line :=
  match mnemonic, operands with
  | ['w', 'r'], [r, v] => do some (.wr (← register r) (← imm32 v))
  | ['r', 'd'], [r] => do some (.rd (← register r))
  | ['n', 'o', 'p'], [] => some (.instr .nop)
  | ['i', 'n', 'i', 't'], [] => some (.instr .init)
  | ['a', 'b', 's', 'o', 'r', 'b'], [n] => do checked (.absorb (← number n))
  | ['f', 'i', 'n', 'i', 's', 'h'], [] => some (.instr .finish)
  | ['l', 'o', 'a', 'd', 'h'], [i] => do checked (.loadh (← number i))
  | ['l', 'o', 'a', 'd', 'm'], [j] => do checked (.loadm (← number j))
  | ['c', 'o', 'm', 'p', 'r', 'e', 's', 's'], [] => some (.instr .compress)
  | ['.', 'c', 'm', 'd'], [v] => do some (.cmd (← imm32 v))
  | ['a', 'b', 's', 'o', 'r', 'b', 'w'], [v, n] => do
    let nb ← number n
    if (Instr.absorb nb).wellFormed then some (.absorbw (← imm32 v) nb) else none
  | ['s', 'e', 't', 'h'], [i, v] => do
    let k ← number i
    if (Instr.loadh k).wellFormed then some (.setH k (← imm32 v)) else none
  | ['s', 'e', 't', 'm'], [j, v] => do
    let k ← number j
    if (Instr.loadm k).wellFormed then some (.setM k (← imm32 v)) else none
  | ['d', 'i', 'g', 'e', 's', 't'], [] => some .digest
  | ['w', 'a', 'i', 't', '_', 'd', 'o', 'n', 'e'], [] => some .waitDone
  | _, _ => none

/-- One line of text: no host line for a blank line or a comment, `none` for text that is no line of R58 or R59. -/
def parseLine (cs : List Char) : Option (List Line) :=
  match tokens [] (dropComment cs) with
  | [] => some []
  | m :: ops => do some [← lineOf (m.map Char.toLower) ops]

/-- A program: "a list of host accesses, one per line" (R58). -/
def parseProgram : List (List Char) → Option (List Line)
  | [] => some []
  | l :: ls => do some ((← parseLine l) ++ (← parseProgram ls))

end Sys2Proof.Machine
end

