-- ==== Sys2Proof/Machine/Hash.lean ====
section
/-! DEFINITION. The source's pure functions: pad (spec/40_padding.md R60), toWords and toBytes (spec/41_word_parsing.md
R68, R69), compressBlock and compress (spec/42_compression.md R90, R91), messageHash (spec/43_hash.md R94) and the digest (R95).
They are written from §4.1 to §4.4 of the source, not over the engine's micro-steps, so that the two can be compared. -/

namespace Sys2Proof.Machine

/-- The largest message, in bytes (R9, R60). -/
def maxMessage : Nat := 2 ^ 61 - 1

/-- `be64bytes(v)`: the 8 bytes of `v`, most significant first (R60). -/
def be64bytes (v : BitVec 64) : List Byte := (List.range 8).map (lenByte v)

/-- `Z = (55 − L) mod 64`, the number of zero bytes (R60). -/
def padZeros (L : Nat) : Nat := ((55 - (L : Int)) % 64).toNat

/-- `message ++ [0x80] ++ zeros(Z) ++ be64bytes(8·L)` (R60). -/
def padded (m : List Byte) : List Byte :=
  m ++ [0x80#8] ++ List.replicate (padZeros m.length) 0#8 ++ be64bytes (BitVec.ofNat 64 (8 * m.length))

/-- `pad(message)` (R60); a message whose bit length does not fit in 64 bits is a fault, never a wrapped length (U1). -/
def pad (m : List Byte) : Host.Outcome (List Byte) Fault Refusal :=
  if m.length ≤ maxMessage then .next (padded m) else .fault .messageTooLong

/-- "each consecutive group of 4 bytes interpreted as one big-endian unsigned 32-bit integer, in original order" (R68). -/
def wordGroups : List Byte → List Word
  | b0 :: b1 :: b2 :: b3 :: rest => be32 b0 b1 b2 b3 :: wordGroups rest
  | _ => []

/-- `toWords(bytes)` (R68); InvalidLength is a fault (R117, U2). -/
def toWords (s : List Byte) : Host.Outcome (List Word) Fault Refusal :=
  if s.length % 4 ≠ 0 then .fault .invalidLength else .next (wordGroups s)

/-- The 4 big-endian bytes of a word (R69). -/
def wordBytes (v : Word) : List Byte := [lane v 0, lane v 1, lane v 2, lane v 3]

/-- `toBytes(words)`: "serializes each word back to 4 big-endian bytes, concatenated in order" (R69). -/
def toBytes (ws : List Word) : List Byte := ws.flatMap wordBytes

/-- The schedule with one more word at its end, computed from earlier entries (§4.3 a, R86). -/
def extendSchedule (ws : List Word) : List Word :=
  ws ++ [scheduleWord (ws.getD (ws.length - 2) 0#32) (ws.getD (ws.length - 7) 0#32)
    (ws.getD (ws.length - 15) 0#32) (ws.getD (ws.length - 16) 0#32)]

/-- The schedule extended by `n` words. -/
def extendBy : Nat → List Word → List Word
  | 0, ws => ws
  | n + 1, ws => extendBy n (extendSchedule ws)

/-- The 64 schedule words of a block: "the first 16 are copied from the block, the remaining 48 are computed from
earlier schedule entries" (R20). -/
def schedule (block : Vector Word 16) : List Word := extendBy 48 block.toList

/-- The rounds over a list of (round constant, schedule word) pairs, in order (§4.3 b, R87). -/
def runRounds (t : Vector Word 8) (kws : List (Word × Word)) : Vector Word 8 :=
  kws.foldl (fun t kw => mixRound t kw.1 kw.2) t

/-- `compressBlock(Hin, block)` (R90): "It depends on `Hin` and `block` only." -/
def compressBlock (hin : Vector Word 8) (block : Vector Word 16) : Vector Word 8 :=
  foldWords hin (runRounds hin (K.toList.zip (schedule block)))

/-- The first 16 words of a list as a block. -/
def firstBlock (ws : List Word) : Vector Word 16 := Vector.ofFn fun j => ws.getD j.val 0#32

/-- The blocks of a word sequence compressed one after the other, `n` of them (R91). -/
def compressBlocks : (n : Nat) → Vector Word 8 → List Word → Vector Word 8
  | 0, h, _ => h
  | n + 1, h, ws => compressBlocks n (compressBlock h (firstBlock ws)) (ws.drop 16)

/-- `compress(initial_state, words)` (R91); a length that is no multiple of 16 is refused (U3). -/
def compress (initial : Vector Word 8) (ws : List Word) : Host.Outcome (Vector Word 8) Fault Refusal :=
  if ws.length % 16 ≠ 0 then .refused .wordsNotWholeBlocks
  else .next (compressBlocks (ws.length / 16) initial ws)

/-- The next function of a composition, where the one before answered. -/
def andThen {α β : Type} (x : Host.Outcome α Fault Refusal) (f : α → Host.Outcome β Fault Refusal) :
    Host.Outcome β Fault Refusal :=
  match x with
  | .next a => f a
  | .fault r => .fault r
  | .refused r => .refused r

/-- `compress(IV, toWords(pad(message)))`, the final state of §4.4 step 4 (R94). -/
def finalState (m : List Byte) : Host.Outcome (Vector Word 8) Fault Refusal :=
  andThen (pad m) fun p => andThen (toWords p) fun ws => compress IV ws

/-- `hash(message)`: the final state's bytes "truncated to the first 28 bytes" (R94). -/
def messageHash (m : List Byte) : Host.Outcome (List Byte) Fault Refusal :=
  andThen (finalState m) fun h => .next ((toBytes h.toList).take 28)

/-- The digest read-out, `toBytes([H[0], ..., H[6]])` (R95). -/
def digest (s : State) : List Byte := toBytes (s.h.toList.take 7)

end Sys2Proof.Machine
end

