-- ==== Sys2Proof/Safety.lean ====
section
/-! DEFINITION. The terms claims use: the invariant of the state between two steps, what a run without a recorded error
is, and which part of the state the host can never see. -/

namespace Sys2Proof.Machine

/-- Between two steps the sequencer is idle (spec/10_state.md R29). -/
abbrev State.SeqIdle (s : State) : Prop := s.seq.phase = .idle

/-- "ECODE is 0 whenever ERR is 0" (R28), and codes 5 to 15 are never produced (R111, U5): with ERR set it is 1 to 4. -/
abbrev State.ErrorCodeLegal (s : State) : Prop :=
  (s.err = false → s.ecode = 0#4) ∧ (s.err = true → 1 ≤ s.ecode.toNat ∧ s.ecode.toNat ≤ 4)

/-- LEN counts whole bytes (R25), BCNT is the number of bytes since the last completed block while the message is open
(R24), and it is 0 once FINISH has completed (R24, R27). -/
abbrev State.CountsAgree (s : State) : Prop :=
  s.len.toNat % 8 = 0 ∧ (s.done = false → s.len.toNat % 512 = 8 * s.bcnt.toNat) ∧ (s.done = true → s.bcnt = 0#6)

/-- The invariant of the engine between two steps. -/
abbrev State.Inv (s : State) : Prop := s.SeqIdle ∧ s.ErrorCodeLegal ∧ s.CountsAgree

/-- The engine is ready for the next host access: idle, reset released. -/
abbrev State.Ready (s : State) : Prop := s.seq.phase = .idle ∧ s.resetLine = false

/-- A recorded error is "a fault of the run that nothing but INIT or reset clears" (R119). -/
abbrev State.Faulted (s : State) : Prop := s.err = true

/-- `s` after `n` steps of the machine. -/
def runSteps (n : Nat) (s : State) : Result := Host.Core.run Sys2Proof.core n s

/-- `s` with these events arriving after the ones that wait. -/
def State.withEvents (s : State) (es : List HostEvent) : State := s.setPending (s.pending ++ es)

/-- A safe run: `n` steps answer a state, and it holds no recorded error. -/
def RunsSafely (n : Nat) (s : State) : Prop := ∃ t, runSteps n s = .next t ∧ ¬ t.Faulted

/-- SEQ with its counter forgotten in the phases where no rule reads it (R85 to R88; log 7). -/
def Seq.withoutFreeCounter (q : Seq) : Seq :=
  match q.phase with
  | .idle => ⟨.idle, 0⟩
  | .load => ⟨.load, 0⟩
  | .expand => q
  | .round => q
  | .fold => ⟨.fold, 0⟩

/-- `s` with its hidden scratch forgotten: T, W, SEQ's counter where no rule reads it, and the model's counter of their free
values (R33; logs 4, 5 and 7). Two states with the same `withoutScratch` differ only there. -/
def State.withoutScratch (s : State) : State :=
  { s with
    t := Vector.replicate 8 0#32
    w := Vector.replicate 64 0#32
    seq := s.seq.withoutFreeCounter
    freeCount := 0 }

/-- The outcome of a step with the hidden scratch forgotten. -/
def scratchForgotten : Result → Result
  | .next t => .next t.withoutScratch
  | .fault r => .fault r
  | .refused r => .refused r

/-- One chunk of a streamed message (spec/43_hash.md R98): the DIN word, and how many of its bytes are taken. -/
structure Chunk where
  word  : Word
  count : Nat
deriving DecidableEq, Repr

/-- The bytes a chunk appends: the first `count` of the word, most significant first (R98). -/
def Chunk.bytes (c : Chunk) : List Byte := (List.range c.count).map (lane c.word)

/-- "1 to 4 bytes each" (R98). -/
abbrev Chunk.ok (c : Chunk) : Prop := 1 ≤ c.count ∧ c.count ≤ 4

/-- `wr DIN, v_k` then `absorb n_k` (R98). -/
def Chunk.events (c : Chunk) : List HostEvent := Line.events (.absorbw c.word c.count)

/-- The host's command sequence of R98: the chunks, then `finish`. -/
def streamEvents (cs : List Chunk) : List HostEvent :=
  cs.flatMap Chunk.events ++ Line.events (.instr .finish)

/-- The host's raw-mode sequence for an initial state: LOADH x 8 (R91). -/
def loadStateEvents (h : Vector Word 8) : List HostEvent :=
  (List.finRange 8).flatMap fun i => Line.events (.setH i.val h[i])

/-- The host's raw-mode sequence for one block: LOADM x 16 and COMPRESS (R91). -/
def blockEvents (b : Vector Word 16) : List HostEvent :=
  ((List.finRange 16).flatMap fun j => Line.events (.setM j.val b[j])) ++ Line.events (.instr .compress)

/-- The raw-mode sequence of `compress(h, words)` for words given block by block (R91). -/
def rawEvents (h : Vector Word 8) (bs : List (Vector Word 16)) : List HostEvent :=
  loadStateEvents h ++ bs.flatMap blockEvents

end Sys2Proof.Machine
end

