-- ==== Sys2Proof/Certificates/Slice0/Obligations.lean ====
section
/-! DEFINITION. The statements for the provers. -/

open Sys2Proof Sys2Proof.Machine

/-! ### Encoding -/

/-- R54, R58: words written out from the opcode map decode to the commands they stand for. -/
def Obligations.CommandWordsDecode : Prop :=
  decode 0x00000000#32 = .command .nop ∧ decode 0x00000001#32 = .command .init ∧
  decode 0x00000202#32 = .command (.absorb 3) ∧ decode 0x00000003#32 = .command .finish ∧
  decode 0x00000074#32 = .command (.loadh 7) ∧ decode 0x000000F5#32 = .command (.loadm 15) ∧
  decode 0x00000006#32 = .command .compress

/-- R52 to R54, R58: decoding the encoding of a well-formed command gives the command back. -/
def Obligations.DecodeOfEncodeIsTheCommand : Prop :=
  ∀ i : Instr, i.wellFormed = true → decode (encode i) = .command i

/-- R52 to R54: each legal word is the encoding of the one well-formed command it decodes to. -/
def Obligations.LegalWordIsItsCommandsEncoding : Prop :=
  ∀ (c : Word) (i : Instr), decode c = .command i → i.wellFormed = true ∧ encode i = c

/-- R54: each command's match and mask, its operand from the bits R53 names, and no two rows select one word. -/
def Obligations.WordIsACommandExactlyWhenItsRowMatches : Prop :=
  ∀ c : Word,
    (decode c = .command .nop ↔ c &&& 0xFFFFFFFF#32 = 0x00000000#32) ∧
    (decode c = .command .init ↔ c &&& 0xFFFFFFFF#32 = 0x00000001#32) ∧
    (∀ nb, decode c = .command (.absorb nb) ↔
      c &&& 0xFFFFFCFF#32 = 0x00000002#32 ∧ nb = (c.extractLsb' 8 2).toNat + 1) ∧
    (decode c = .command .finish ↔ c &&& 0xFFFFFFFF#32 = 0x00000003#32) ∧
    (∀ i, decode c = .command (.loadh i) ↔
      c &&& 0xFFFFFF8F#32 = 0x00000004#32 ∧ i = (c.extractLsb' 4 3).toNat) ∧
    (∀ j, decode c = .command (.loadm j) ↔
      c &&& 0xFFFFFF0F#32 = 0x00000005#32 ∧ j = (c.extractLsb' 4 4).toNat) ∧
    (decode c = .command .compress ↔ c &&& 0xFFFFFFFF#32 = 0x00000006#32) ∧
    (∀ i j : Instr, i.row.selects c = true → j.row.selects c = true → i.row = j.row)

/-- R56: a word is illegal exactly when no row selects it, that is exactly when it is in the rule's list, and then it raises
ILLEGAL_COMMAND and does nothing else. -/
def Obligations.IllegalWordsAreThoseOfTheList : Prop :=
  ∀ c : Word,
    ((∃ why, decode c = .illegal why) ↔ ∀ i : Instr, i.row.selects c = false) ∧
    ((∃ why, decode c = .illegal why) ↔
      (7 ≤ (opField c).toNat ∨ rsvField c ≠ 0#22 ∨
        (idxField c ≠ 0#4 ∧ (opField c = 0#4 ∨ opField c = 1#4 ∨ opField c = 2#4 ∨ opField c = 3#4 ∨ opField c = 6#4)) ∨
        (c.getLsbD 7 = true ∧ opField c = 4#4) ∨ (nbm1Field c ≠ 0#2 ∧ opField c ≠ 2#4))) ∧
    ((∃ why, decode c = .illegal why) → ∀ s, dispatchWord c s = .next (raiseError .illegalCommand s))

/-! ### The step and the host's accesses -/

/-- R102, R50: when the host's write of a command word is the oldest event (log 1), the step of a ready engine takes the event
off and is `exec` of the decoded command, or, for an illegal word, DISPATCH's error. -/
def Obligations.StepRunsTheWrittenCommand : Prop :=
  (∀ (s : State) (c : Word) (es : List HostEvent) (i : Instr), s.Ready → s.pending = commandEvent c :: es →
    decode c = .command i → step s = exec i (s.setPending es)) ∧
  (∀ (s : State) (c : Word) (es : List HostEvent) (why : Illegal), s.Ready → s.pending = commandEvent c :: es →
    decode c = .illegal why → step s = .next (raiseError .illegalCommand (s.setPending es)))

/-- R41, R47, R101: the step of a ready engine whose oldest event is an access to a register of the window performs that
access: a read appends the word it returns to `results` and changes nothing else (logs 1 and 2 are the model's form of
arrival and of the read's result), a write is RegWrite. -/
def Obligations.StepPerformsTheHostAccess : Prop :=
  (∀ (s : State) (off : Nat) (r : Slot) (es : List HostEvent), s.Ready → s.pending = readEvent off :: es →
    slotAt off = some r → step s = .next { s with pending := es, results := s.results ++ [regRead r s] }) ∧
  (∀ (s : State) (off : Nat) (v : Word) (r : Slot) (es : List HostEvent), s.Ready → s.pending = writeEvent off v :: es →
    slotAt off = some r → step s = regWrite r v (s.setPending es))

/-- R113: a word that no row selects records ILLEGAL_COMMAND (code 1) and has no other effect; with an error recorded already
it is still illegal, keeps the first code, and is no INIT. -/
def Obligations.IllegalWordRecordsIllegalCommand : Prop :=
  ∀ (c : Word) (s : State), (∀ i : Instr, i.row.selects c = false) →
    dispatchWord c s = .next { s with err := true, ecode := if s.err then s.ecode else 1#4 }

/-- R101: what RegRead returns at each offset of the window. -/
def Obligations.HostReadReturnsTheRegister : Prop :=
  ∀ (s : State) (off : Nat) (v : Word),
    (off, v) ∈ [(0x00, 0#32), (0x04, s.din),
      (0x08, BitVec.ofNat 32 (s.done.toNat + 2 * s.err.toNat + 16 * s.ecode.toNat + 256 * s.bcnt.toNat)),
      (0x0C, s.len.extractLsb' 0 32), (0x10, s.len.extractLsb' 32 32), (0x14, 0#32), (0x18, 0#32), (0x1C, 0#32),
      (0x20, s.h[0]), (0x24, s.h[1]), (0x28, s.h[2]), (0x2C, s.h[3]), (0x30, s.h[4]), (0x34, s.h[5]), (0x38, s.h[6]),
      (0x3C, s.h[7])] →
    ∃ r, slotAt off = some r ∧ regRead r s = v

/-- R32: the bits of STATUS, reserved bits 0 among them, and no field writable. -/
def Obligations.StatusWordHoldsTheFlags : Prop :=
  ∀ s : State,
    (statusWord s).getLsbD 0 = s.done ∧ (statusWord s).getLsbD 1 = s.err ∧ (statusWord s).extractLsb' 2 2 = 0#2 ∧
    (statusWord s).extractLsb' 4 4 = s.ecode ∧ (statusWord s).extractLsb' 8 6 = s.bcnt ∧
    (statusWord s).extractLsb' 14 18 = 0#18 ∧
    (statusWord s).toNat = s.done.toNat + 2 * s.err.toNat + 16 * s.ecode.toNat + 256 * s.bcnt.toNat ∧
    ∀ v, regWrite .status v s = .next s

/-- R100: RegWrite dispatches a word written to CMD, stores a word written to DIN, and has no effect at any other offset. -/
def Obligations.HostWriteDispatchesStoresOrIsIgnored : Prop :=
  ∀ (s : State) (off : Nat) (v : Word) (r : Slot), slotAt off = some r →
    regWrite r v s = if off = 0x00 then dispatchWord v s else if off = 0x04 then .next { s with din := v } else .next s

/-- R41, R129, R132 (U7, U8): a host access is refused exactly when reset is asserted, it is not 32 bits wide, it lies
outside the window, or its offset is not a multiple of 4. -/
def Obligations.AccessRefusedExactlyOutsideTheInterface : Prop :=
  ∀ (s : State) (a : Access) (es : List HostEvent), s.seq.phase = .idle → s.pending = .access a :: es →
    ((∃ r, step s = .refused r) ↔
      (s.resetLine = true ∨ a.width ≠ 32 ∨ a.disp < 0 ∨ 64 ≤ a.disp ∨ a.disp % 4 ≠ 0))

/-- R37: an access at byte address `SHA_BASE + off` inside the window is the access at offset `off`, `SHA_BASE` is a
multiple of 64, and an address outside the window reaches no register. That the model refuses such an access, and under this
name at a misaligned address too, is log 10 (DEDUCED from R132; the names and their order are a DESIGN CHOICE). -/
def Obligations.WindowDecodesBasePlusOffset : Prop :=
  Config.shaBase % 64 = 0 ∧
  (∀ (off : Nat) (op : AccessOp), off < 64 → off % 4 = 0 →
    ∃ r, slotAt off = some r ∧ accessSlot (accessAt (Config.shaBase + off) 32 op) = .ok r) ∧
  (∀ (a : Nat) (op : AccessOp), a < Config.shaBase ∨ Config.shaBase + 64 ≤ a →
    accessSlot (accessAt a 32 op) = .error .accessOutsideWindow)

/-- R47: a step of an idle engine performs exactly the oldest event, whichever events come later. -/
def Obligations.StepPerformsExactlyTheOldestEvent : Prop :=
  ∀ (s t : State) (e : HostEvent) (es : List HostEvent), s.seq.phase = .idle → s.pending = e :: es → step s = .next t →
    t.pending = es ∧ ∀ fs, step { s with pending := e :: fs } = .next { t with pending := fs }

/-! ### Errors and the gate -/

/-- R112: `raise Error` sets ERR and ECODE once, keeps the first code, and a command that raises changes nothing else. -/
def Obligations.RaisingChangesOnlyTheErrorRecord : Prop :=
  (∀ (code : ErrorCode) (s : State), s.err = false → raiseError code s = { s with err := true, ecode := code.bits }) ∧
  (∀ (code : ErrorCode) (s : State), s.err = true → raiseError code s = s) ∧
  (∀ (i : Instr) (s t : State), s.err = false → exec i s = .next t → t.err = true →
    ∃ code : ErrorCode, t = { s with err := true, ecode := code.bits })

/-- R114: ABSORB and FINISH after FINISH record SEQUENCE (code 2) and nothing else; for ABSORB it comes before
LENGTH_OVERFLOW, whatever LEN holds. -/
def Obligations.AbsorbAndFinishAfterDoneRaiseSequence : Prop :=
  (∀ (nb : Nat) (s : State), 1 ≤ nb → nb ≤ 4 → s.err = false → s.done = true →
    exec (.absorb nb) s = .next { s with err := true, ecode := 2#4 }) ∧
  (∀ s : State, s.err = false → s.done = true → exec .finish s = .next { s with err := true, ecode := 2#4 })

/-- R115: LOADM and COMPRESS while a streaming block is partly filled record PARTIAL_BLOCK (code 3) and nothing else. -/
def Obligations.RawCommandsInAPartialBlockRaisePartialBlock : Prop :=
  (∀ (j : Nat) (s : State), j < 16 → s.err = false → s.bcnt ≠ 0#6 →
    exec (.loadm j) s = .next { s with err := true, ecode := 3#4 }) ∧
  (∀ s : State, s.err = false → s.bcnt ≠ 0#6 → exec .compress s = .next { s with err := true, ecode := 3#4 })

/-- R116: an ABSORB that would take LEN past 2^64 − 1 records LENGTH_OVERFLOW (code 4) and takes no byte. -/
def Obligations.AbsorbPastTheLengthLimitRaisesOverflow : Prop :=
  ∀ (nb : Nat) (s : State), 1 ≤ nb → nb ≤ 4 → s.err = false → s.done = false →
    s.len.toNat + 8 * nb > 2 ^ 64 - 1 → exec (.absorb nb) s = .next { s with err := true, ecode := 4#4 }

/-- R119: while an error is recorded, every legal command but INIT is ignored. -/
def Obligations.ErrorGateIgnoresEveryCommandButInit : Prop :=
  ∀ (i : Instr) (s : State), s.err = true → i.wellFormed = true → i ≠ .init → exec i s = .next s

/-- R112, R119, R120 and spec/95_test_vectors.md section 4: while an error is recorded, no sequence of command words
without 0x00000001, legal or illegal, changes the engine. -/
def Obligations.RecordedErrorHoldsUntilInit : Prop :=
  ∀ (cs : List Word) (s : State), s.Ready → s.err = true → (∀ c ∈ cs, c ≠ 0x00000001#32) →
    s.pending = cs.map commandEvent → runSteps cs.length s = .next (s.setPending [])

/-! ### The commands -/

/-- R103: NOP leaves every piece of state unchanged. -/
def Obligations.NopChangesNothing : Prop := ∀ s : State, exec .nop s = .next s

/-- R104: INIT writes H, BUF, BCNT, LEN, DONE, ERR and ECODE, whatever the error state, and nothing else. -/
def Obligations.InitStartsANewMessage : Prop :=
  ∀ s : State, exec .init s = .next
    { s with h := IV, buf := Vector.replicate 64 0#8, bcnt := 0#6, len := 0#64, done := false, err := false,
             ecode := 0#4 }

/-- R107: LOADH i writes DIN to H[i], at any BCNT and any DONE, and nothing else. -/
def Obligations.LoadhWritesOneHashWord : Prop :=
  ∀ (i : Nat) (hi : i < 8) (s : State), s.err = false →
    exec (.loadh i) s = .next { s with h := s.h.set i s.din hi }

/-- R108: LOADM j at a block boundary writes the four bytes of DIN to BUF[4j..4j+3], most significant first, and nothing
else; in a partly filled block it raises PARTIAL_BLOCK. -/
def Obligations.LoadmWritesFourBlockBytes : Prop :=
  ∀ (j : Nat) (hj : j < 16) (s : State), s.err = false →
    (s.bcnt = 0#6 → ∃ t, exec (.loadm j) s = .next t ∧
      (∀ (k : Nat) (hk : k < 4), t.buf[4 * j + k]'(by omega) = s.din.extractLsb' (24 - 8 * k) 8) ∧
      (∀ (n : Nat) (hn : n < 64), n < 4 * j ∨ 4 * j + 4 ≤ n → t.buf[n] = s.buf[n]) ∧
      { t with buf := s.buf } = s) ∧
    (s.bcnt ≠ 0#6 → exec (.loadm j) s = .next { s with err := true, ecode := 3#4 })

/-- R72: a LOADM of word j with value v, followed by a LOAD, gives W[j] = v. -/
def Obligations.LoadedWordIsParsedBack : Prop :=
  ∀ (j : Nat) (hj : j < 16) (s t : State), s.err = false → s.bcnt = 0#6 → exec (.loadm j) s = .next t →
    (microStep (startCompression t)).w[j]'(by omega) = s.din

/-- R109: COMPRESS at a block boundary compresses BUF into H; besides the scratch T and W, unspecified afterwards (U4), it
writes nothing else; in a partly filled block it raises PARTIAL_BLOCK. -/
def Obligations.CompressFoldsTheBlock : Prop :=
  ∀ s : State, s.err = false →
    (s.bcnt = 0#6 → ∃ t, exec .compress s = .next t ∧ t.withoutScratch =
      ({ s with h := compressBlock s.h (blockWords s.buf), seq := ⟨.idle, 0⟩ } : State).withoutScratch) ∧
    (s.bcnt ≠ 0#6 → exec .compress s = .next { s with err := true, ecode := 3#4 })

/-- R105, an ABSORB whose bytes do not fill BUF: it stores the first NB lanes of DIN at BUF[BCNT] onwards, adds 8·NB to
LEN and NB to BCNT, and changes nothing else. -/
def Obligations.AbsorbInsideABlockStoresTheBytes : Prop :=
  ∀ (nb : Nat) (s : State), 1 ≤ nb → nb ≤ 4 → s.err = false → s.done = false →
    s.len.toNat + 8 * nb ≤ 2 ^ 64 - 1 → s.bcnt.toNat + nb < 64 →
    ∃ t, exec (.absorb nb) s = .next t ∧
      (∀ (n : Nat) (hn : n < 64), t.buf[n] =
        if s.bcnt.toNat ≤ n ∧ n < s.bcnt.toNat + nb then lane s.din (n - s.bcnt.toNat) else s.buf[n]) ∧
      t.len.toNat = s.len.toNat + 8 * nb ∧ t.bcnt.toNat = s.bcnt.toNat + nb ∧
      { t with buf := s.buf, len := s.len, bcnt := s.bcnt } = s

/-- R105, an ABSORB that fills BUF: it compresses after the byte that fills BUF, puts the rest at BUF[0] onwards, and
besides the scratch T and W changes nothing else. -/
def Obligations.AbsorbAcrossABlockCompressesOnce : Prop :=
  ∀ (nb : Nat) (s : State), 1 ≤ nb → nb ≤ 4 → s.err = false → s.done = false →
    s.len.toNat + 8 * nb ≤ 2 ^ 64 - 1 → 64 ≤ s.bcnt.toNat + nb →
    ∃ t, exec (.absorb nb) s = .next t ∧
      (let filled : Vector Byte 64 := Vector.ofFn fun n =>
        if s.bcnt.toNat ≤ n.val then lane s.din (n.val - s.bcnt.toNat) else s.buf[n]
       t.h = compressBlock s.h (blockWords filled) ∧
       (∀ (n : Nat) (hn : n < 64), t.buf[n] =
         if n + 64 < s.bcnt.toNat + nb then lane s.din (n + 64 - s.bcnt.toNat) else filled[n])) ∧
      t.len.toNat = s.len.toNat + 8 * nb ∧ t.bcnt.toNat = s.bcnt.toNat + nb - 64 ∧
      ({ t with h := s.h, buf := s.buf, len := s.len, bcnt := s.bcnt } : State).withoutScratch =
        ({ s with seq := ⟨.idle, 0⟩ } : State).withoutScratch

/-- R66, R106: FINISH while DONE raises SEQUENCE; otherwise it pads the block in BUF with the terminator, zeros and the
length field, compresses once if BCNT <= 55 and twice otherwise, clears BCNT, sets DONE, keeps LEN, and besides the scratch
changes nothing else. -/
def Obligations.FinishPadsAndCompresses : Prop :=
  ∀ s : State, s.err = false →
    (s.done = true → exec .finish s = .next { s with err := true, ecode := 2#4 }) ∧
    (s.done = false →
      let b := s.bcnt.toNat
      let one : Vector Byte 64 := Vector.ofFn fun n =>
        if n.val < b then s.buf[n] else if n.val = b then 0x80#8 else if n.val < 56 then 0#8
        else s.len.extractLsb' (56 - 8 * (n.val - 56)) 8
      let first : Vector Byte 64 := Vector.ofFn fun n =>
        if n.val < b then s.buf[n] else if n.val = b then 0x80#8 else 0#8
      let second : Vector Byte 64 := Vector.ofFn fun n =>
        if n.val < 56 then 0#8 else s.len.extractLsb' (56 - 8 * (n.val - 56)) 8
      ∃ t, exec .finish s = .next t ∧ t.withoutScratch =
        (if b ≤ 55 then
          ({ s with h := compressBlock s.h (blockWords one), buf := one, bcnt := 0#6, done := true,
                    seq := ⟨.idle, 0⟩ } : State)
         else
          ({ s with h := compressBlock (compressBlock s.h (blockWords first)) (blockWords second), buf := second,
                    bcnt := 0#6, done := true, seq := ⟨.idle, 0⟩ } : State)).withoutScratch)

/-! ### Who writes what -/

/-- R26: no command changes DIN; nor the events that wait, the read results or the reset line. -/
def Obligations.NoCommandChangesDIN : Prop :=
  ∀ (i : Instr) (s t : State), exec i s = .next t →
    t.din = s.din ∧ t.pending = s.pending ∧ t.results = s.results ∧ t.resetLine = s.resetLine

/-- R27: among the commands, only FINISH sets DONE and only INIT clears it. -/
def Obligations.OnlyFinishSetsAndOnlyInitClearsDone : Prop :=
  ∀ (i : Instr) (s t : State), exec i s = .next t →
    (s.done = false → t.done = true → i = .finish) ∧ (s.done = true → t.done = false → i = .init)

/-- R25: LEN never wraps: every command but INIT leaves it or adds 8·NB to it exactly, and only ABSORB adds. -/
def Obligations.OnlyAbsorbAddsToLENAndItNeverWraps : Prop :=
  ∀ (i : Instr) (s t : State), exec i s = .next t →
    (i = .init ∧ t.len = 0#64) ∨ t.len = s.len ∨
    ∃ nb, i = .absorb nb ∧ 1 ≤ nb ∧ nb ≤ 4 ∧ t.len.toNat = s.len.toNat + 8 * nb

/-! ### The datapath -/

/-- R76, R77: the bits of `x >> n` and of `rotr(x, n)`, and `rotr(x, 32 − n)` undoes `rotr(x, n)`. -/
def Obligations.ShiftAndRotationMoveEachBit : Prop :=
  (∀ (x : Word) (n : Nat), 1 ≤ n → n < 32 → (shr x n).toNat = x.toNat / 2 ^ n) ∧
  (∀ (x : Word) (n k : Nat), 1 ≤ n → n < 32 → k < 32 → (rotr x n).getLsbD k = x.getLsbD ((k + n) % 32)) ∧
  (∀ (x : Word) (n : Nat), 1 ≤ n → n < 32 → rotr (rotr x n) (32 - n) = x)

/-- R78 to R83: the bits of Ch, Maj, Σ0, Σ1, σ0 and σ1. -/
def Obligations.MixingFunctionsBitByBit : Prop :=
  ∀ (x y z : Word) (k : Nat), k < 32 →
    (ch x y z).getLsbD k = (if x.getLsbD k then y.getLsbD k else z.getLsbD k) ∧
    ((maj x y z).getLsbD k = true ↔ 2 ≤ (x.getLsbD k).toNat + (y.getLsbD k).toNat + (z.getLsbD k).toNat) ∧
    (bigSigma0 x).getLsbD k =
      (x.getLsbD ((k + 2) % 32) ^^ x.getLsbD ((k + 13) % 32) ^^ x.getLsbD ((k + 22) % 32)) ∧
    (bigSigma1 x).getLsbD k =
      (x.getLsbD ((k + 6) % 32) ^^ x.getLsbD ((k + 11) % 32) ^^ x.getLsbD ((k + 25) % 32)) ∧
    (smallSigma0 x).getLsbD k =
      (x.getLsbD ((k + 7) % 32) ^^ x.getLsbD ((k + 18) % 32) ^^ x.getLsbD (k + 3)) ∧
    (smallSigma1 x).getLsbD k =
      (x.getLsbD ((k + 17) % 32) ^^ x.getLsbD ((k + 19) % 32) ^^ x.getLsbD (k + 10))

/-- R84: `K[t]` is `floor(cbrt(p) · 2^32) mod 2^32` for the `(t+1)`-th prime `p`. The table is PRESUMED (log 12). -/
def Obligations.RoundConstantsAreCubeRootsOfPrimes : Prop :=
  let primes : List Nat :=
    [2, 3, 5, 7, 11, 13, 17, 19, 23, 29, 31, 37, 41, 43, 47, 53] ++
    [59, 61, 67, 71, 73, 79, 83, 89, 97, 101, 103, 107, 109, 113, 127, 131] ++
    [137, 139, 149, 151, 157, 163, 167, 173, 179, 181, 191, 193, 197, 199, 211, 223] ++
    [227, 229, 233, 239, 241, 251, 257, 263, 269, 271, 277, 281, 283, 293, 307, 311]
  primes.length = 64 ∧ (∀ p < 312, p.Prime ↔ p ∈ primes) ∧
  ∀ (t : Nat) (ht : t < 64), ∃ root : Nat,
    root ^ 3 ≤ primes.getD t 0 * 2 ^ 96 ∧ primes.getD t 0 * 2 ^ 96 < (root + 1) ^ 3 ∧ K[t].toNat = root % 2 ^ 32

/-- R39, R13: the lanes of a word and `be32` by their numeric values. -/
def Obligations.LanesAreBigEndian : Prop :=
  (∀ (v : Word) (k : Nat), k < 4 → (lane v k).toNat = v.toNat / 2 ^ (24 - 8 * k) % 256) ∧
  (∀ b0 b1 b2 b3 : Byte,
    (be32 b0 b1 b2 b3).toNat = b0.toNat * 2 ^ 24 + b1.toNat * 2 ^ 16 + b2.toNat * 2 ^ 8 + b3.toNat)

/-- R85: the LOAD micro-step. -/
def Obligations.LoadCopiesBlockAndHash : Prop :=
  ∀ s : State, s.seq.phase = .load →
    (∀ (j : Nat) (hj : j < 16), (microStep s).w[j] =
      be32 s.buf[4 * j] s.buf[4 * j + 1] s.buf[4 * j + 2] s.buf[4 * j + 3]) ∧
    (∀ (j : Nat) (hj : j < 64), 16 ≤ j → (microStep s).w[j] = s.w[j]) ∧
    (microStep s).t = s.h ∧ (microStep s).seq = ⟨.expand, 16⟩ ∧
    { microStep s with w := s.w, t := s.t, seq := s.seq } = s

/-- R86: the EXPAND micro-step, for t = 16 to 63. -/
def Obligations.ExpandComputesOneScheduleWord : Prop :=
  ∀ (s : State) (t : Nat) (ht : t < 64), 16 ≤ t → s.seq = ⟨.expand, ⟨t, ht⟩⟩ →
    (microStep s).w[t] =
      smallSigma1 (s.w[t - 2]'(by omega)) + s.w[t - 7]'(by omega) + smallSigma0 (s.w[t - 15]'(by omega)) +
        s.w[t - 16]'(by omega) ∧
    (∀ (j : Nat) (hj : j < 64), j ≠ t → (microStep s).w[j] = s.w[j]) ∧
    (∀ h1 : t + 1 < 64, (microStep s).seq = ⟨.expand, ⟨t + 1, h1⟩⟩) ∧ (t = 63 → (microStep s).seq = ⟨.round, 0⟩) ∧
    { microStep s with w := s.w, seq := s.seq } = s

/-- R87: the ROUND micro-step, with the simultaneous shift of 90_conflicts.md C1. -/
def Obligations.RoundShiftsTheWorkingRegisters : Prop :=
  ∀ (s : State) (r : Nat) (hr : r < 64), s.seq = ⟨.round, ⟨r, hr⟩⟩ →
    let t1 := s.t[7] + bigSigma1 s.t[4] + ch s.t[4] s.t[5] s.t[6] + K[r] + s.w[r]
    let t2 := bigSigma0 s.t[0] + maj s.t[0] s.t[1] s.t[2]
    (microStep s).t = #v[t1 + t2, s.t[0], s.t[1], s.t[2], s.t[3] + t1, s.t[4], s.t[5], s.t[6]] ∧
    (∀ h1 : r + 1 < 64, (microStep s).seq = ⟨.round, ⟨r + 1, h1⟩⟩) ∧ (r = 63 → (microStep s).seq.phase = .fold) ∧
    { microStep s with t := s.t, seq := s.seq } = s

/-- R88: the FOLD micro-step; T and W are scratch afterwards. -/
def Obligations.FoldAccumulatesIntoHash : Prop :=
  ∀ s : State, s.seq.phase = .fold →
    (∀ (i : Nat) (hi : i < 8), (microStep s).h[i] = s.h[i] + s.t[i]) ∧ (microStep s).seq.phase = .idle ∧
    ({ microStep s with h := s.h, seq := s.seq } : State).withoutScratch = s.withoutScratch

/-- R89: the fixed list of micro-steps of one compression, 114 of them, whatever the data. -/
def Obligations.CompressionIsTheFixedListOfMicroSteps : Prop :=
  ∀ s : State,
    (microSteps 0 (startCompression s)).seq.phase = .load ∧
    (∀ t : Fin 64, 16 ≤ t.val → (microSteps (t.val - 15) (startCompression s)).seq = ⟨.expand, t⟩) ∧
    (∀ t : Fin 64, (microSteps (t.val + 49) (startCompression s)).seq = ⟨.round, t⟩) ∧
    (microSteps 113 (startCompression s)).seq.phase = .fold ∧
    (microSteps 114 (startCompression s)).seq.phase = .idle ∧
    compression s = microSteps 114 (startCompression s)

/-- R90: the engine's compression, from any T and W, leaves in H the pure `compressBlock` of H and the block in BUF, and
besides the scratch changes nothing else. -/
def Obligations.CompressionComputesCompressBlock : Prop :=
  ∀ s : State, (compression s).withoutScratch =
    ({ s with h := compressBlock s.h (blockWords s.buf), seq := ⟨.idle, 0⟩ } : State).withoutScratch

/-! ### The pure functions -/

/-- R60, R63: the layout of the padded message, its last 8 bytes the bit length, big-endian. That pad and hash fault on a longer
message is spec/93_implementation_defined.md U1 and log 19 (DEDUCED), no part of R60 or R63. -/
def Obligations.PaddedMessageLayout : Prop :=
  (∀ m : List Byte, m.length ≤ 2 ^ 61 - 1 →
    ∃ (z : Nat) (tail : List Byte), pad m = .next (m ++ 0x80#8 :: List.replicate z 0#8 ++ tail) ∧ z < 64 ∧
      (m.length + 1 + z + 8) % 64 = 0 ∧ tail.length = 8 ∧
      tail.foldl (fun acc b => 256 * acc + b.toNat) 0 = 8 * m.length) ∧
  (∀ m : List Byte, 2 ^ 61 - 1 < m.length → pad m = .fault .messageTooLong ∧ messageHash m = .fault .messageTooLong)

/-- R61: the padded length is the smallest multiple of 64 that is at least the message length plus 9. -/
def Obligations.PaddedLengthIsTheSmallestMultiple : Prop :=
  ∀ m p : List Byte, pad m = .next p →
    p.length = 64 * ((m.length + 8) / 64 + 1) ∧ p.length % 64 = 0 ∧ m.length + 9 ≤ p.length ∧
    ∀ n, n % 64 = 0 → m.length + 9 ≤ n → p.length ≤ n

/-- R68: toWords groups 4 bytes big-endian in order, and faults with InvalidLength exactly on a partial word, which BUF, whose
words are `blockWords`, never holds. -/
def Obligations.ToWordsGroupsBytesOrFaults : Prop :=
  (∀ s : List Byte, s.length % 4 ≠ 0 → toWords s = .fault .invalidLength) ∧
  (∀ s : List Byte, s.length % 4 = 0 → ∃ ws, toWords s = .next ws ∧ ws.length = s.length / 4 ∧
    ∀ (k : Nat), k < ws.length →
      ws.getD k 0#32 = be32 (s.getD (4 * k) 0#8) (s.getD (4 * k + 1) 0#8) (s.getD (4 * k + 2) 0#8) (s.getD (4 * k + 3) 0#8)) ∧
  (∀ s : State, toWords s.buf.toList = .next (blockWords s.buf).toList)

/-- R69, R70: the bytes `toBytes` gives, and parsing and serialising undo each other. -/
def Obligations.ParseAndSerialiseAreInverse : Prop :=
  (∀ ws : List Word, (toBytes ws).length = 4 * ws.length ∧
    ∀ (n k : Nat) (hn : n < ws.length), k < 4 →
      (toBytes ws)[4 * n + k]? = some (ws[n].extractLsb' (24 - 8 * k) 8)) ∧
  (∀ x : List Byte, x.length % 4 = 0 → ∃ ws, toWords x = .next ws ∧ toBytes ws = x) ∧
  (∀ ws : List Word, toWords (toBytes ws) = .next ws)

/-- R91: `compress` takes the blocks one after the other, answers the initial state on no words, and is refused on a
length that is no multiple of 16. -/
def Obligations.CompressTakesBlocksInOrder : Prop :=
  (∀ h : Vector Word 8, compress h [] = .next h) ∧
  (∀ (h : Vector Word 8) (b : Vector Word 16) (ws : List Word), ws.length % 16 = 0 →
    compress h (b.toList ++ ws) = compress (compressBlock h b) ws) ∧
  (∀ (h : Vector Word 8) (ws : List Word), ws.length % 16 ≠ 0 → compress h ws = .refused .wordsNotWholeBlocks)

/-- R94, R97: the hash of a message of at most 2^61 − 1 bytes is the composition of pad, toWords, compress from IV and
toBytes, truncated to its first 28 bytes, and it has exactly 28. -/
def Obligations.HashIsTwentyEightBytesOfTheFinalState : Prop :=
  ∀ m : List Byte, m.length ≤ 2 ^ 61 - 1 →
    ∃ p ws f, pad m = .next p ∧ toWords p = .next ws ∧ compress IV ws = .next f ∧
      messageHash m = .next ((toBytes f.toList).take 28) ∧ ((toBytes f.toList).take 28).length = 28

/-- R95: digest byte `4i + k` is `H[i][31 − 8k : 24 − 8k]`, for i in 0..6, the host reads H[i] at offset 0x20 + 4i, and
H[7] is no part of the digest. -/
def Obligations.DigestBytesAreTheHashWordsBytes : Prop :=
  ∀ s : State, (digest s).length = 28 ∧
    ∀ (i : Nat) (hi : i < 7), (∃ r, slotAt (0x20 + 4 * i) = some r ∧ regRead r s = s.h[i]) ∧
      ∀ k < 4, (digest s)[4 * i + k]? = some (s.h[i].extractLsb' (24 - 8 * k) 8)

/-! ### Whole runs -/

/-- R67, R99: from the state after reset, whatever T and W hold, after the chunks of a message and before FINISH, H is the
chaining value of the completed blocks, BUF holds the last bytes, and BCNT and LEN count. -/
def Obligations.AbsorbedPrefixIsTheChainingValue : Prop :=
  ∀ (cs : List Chunk) (s : State), (∀ c ∈ cs, c.ok) → (cs.flatMap Chunk.bytes).length ≤ 2 ^ 61 - 1 →
    s.withoutScratch = (State.reset.setPending (cs.flatMap Chunk.events)).withoutScratch →
    let m := cs.flatMap Chunk.bytes
    ∃ t, runSteps (cs.flatMap Chunk.events).length s = .next t ∧ t.err = false ∧ t.done = false ∧
      t.len.toNat = 8 * m.length ∧ t.bcnt.toNat = m.length % 64 ∧
      t.h = compressBlocks (m.length / 64) IV (wordGroups m) ∧
      t.buf.toList.take t.bcnt.toNat = m.drop (64 * (m.length / 64)) ∧ t.pending = []

/-- R98: from the state after reset, whatever T and W hold, or from any state followed by INIT, the streaming commands of any
cut of a message into chunks of 1 to 4 bytes compute its hash. -/
def Obligations.StreamingCommandsComputeTheHash : Prop :=
  ∀ (cs : List Chunk) (s : State), (∀ c ∈ cs, c.ok) → (cs.flatMap Chunk.bytes).length ≤ 2 ^ 61 - 1 → s.Ready →
    let m := cs.flatMap Chunk.bytes
    let computed (n : Nat) (s : State) : Prop :=
      ∃ t f, runSteps n s = .next t ∧ t.err = false ∧ t.done = true ∧ t.len.toNat = 8 * m.length ∧ t.bcnt = 0#6 ∧
        messageHash m = .next (digest t) ∧ finalState m = .next f ∧ t.h[7] = f[7]
    (s.withoutScratch = (State.reset.setPending (streamEvents cs)).withoutScratch →
      computed (streamEvents cs).length s) ∧
    computed ((streamEvents cs).length + 1) (s.setPending (Line.events (.instr .init) ++ streamEvents cs))

/-- R91, by the raw-mode command sequence: LOADH x 8, then per block LOADM x 16 and COMPRESS, computes `compress` from
any state without a recorded error and at a block boundary. -/
def Obligations.RawCommandsComputeCompress : Prop :=
  ∀ (h : Vector Word 8) (bs : List (Vector Word 16)) (s : State), s.Ready → s.err = false → s.bcnt = 0#6 →
    s.pending = rawEvents h bs →
    ∃ t, runSteps (rawEvents h bs).length s = .next t ∧ compress h (bs.flatMap fun b => b.toList) = .next t.h ∧
      t.err = false ∧ t.bcnt = 0#6 ∧ t.done = s.done ∧ t.len = s.len ∧ t.pending = []

/-! ### Invariants, reset and isolation -/

/-- R35: the values after reset (T and W are log 3's choice and no part of this statement). -/
def Obligations.ResetLeavesTheStatedValues : Prop :=
  State.reset.h = #v[0xC1059ED8#32, 0x367CD507#32, 0x3070DD17#32, 0xF70E5939#32, 0xFFC00B31#32, 0x68581511#32,
    0x64F98FA7#32, 0xBEFA4FA4#32] ∧
  (∀ (j : Nat) (hj : j < 64), State.reset.buf[j] = 0x00#8) ∧ State.reset.bcnt = 0#6 ∧ State.reset.len = 0#64 ∧
  State.reset.din = 0x00000000#32 ∧ State.reset.done = false ∧ State.reset.err = false ∧ State.reset.ecode = 0#4 ∧
  State.reset.seq = ⟨.idle, 0⟩

/-- The invariant holds right after reset. -/
def Obligations.ResetMeetsTheInvariant : Prop := State.reset.Inv

/-- R24, R25, R28, R29, R111: every step keeps the invariant: the sequencer idle, ECODE 0 without ERR and 1 to 4 with
it, LEN in whole bytes, and BCNT the bytes of the open block. -/
def Obligations.StepKeepsTheInvariant : Prop :=
  ∀ s t : State, s.Inv → step s = .next t → t.Inv

/-- R129: reset restores every register in any state, in the middle of a compression too. That the events that wait and the
words read so far stay is the model's choice (log 20). -/
def Obligations.ResetEventRestoresEveryRegister : Prop :=
  ∀ (s : State) (es : List HostEvent), s.pending = .resetAssert :: es →
    ∃ t, step s = .next t ∧ t.seq = ⟨.idle, 0⟩ ∧ t.withoutScratch =
      ({ State.reset with pending := es, results := s.results, resetLine := true } : State).withoutScratch

/-- R129: a command cut short by reset after any number of its micro-steps has no effect that survives (log 9 for the event,
log 20 for the accesses that wait behind the command). -/
def Obligations.CutCommandLeavesNoEffect : Prop :=
  ∀ (s : State) (c : Word) (n : Nat) (es : List HostEvent), s.Ready → s.pending = .commandCut c n :: es →
    ∃ t, step s = .next t ∧ t.seq = ⟨.idle, 0⟩ ∧ t.withoutScratch =
      ({ State.reset with pending := es, results := s.results, resetLine := true } : State).withoutScratch

/-- R133: a command seen micro-step by micro-step takes `microStepCount` micro-steps and not fewer, and ends in the state
`exec` gives it in one step. -/
def Obligations.MicroStepsRefineTheCommand : Prop :=
  ∀ (i : Instr) (s t : State), exec i s = .next t →
    ticks (microStepCount i s) (beginCommand i s) = ⟨t, none⟩ ∧
    ∀ n < microStepCount i s, (ticks n (beginCommand i s)).rest ≠ none

/-- R134: every command, legal or illegal, ends, after at most 228 micro-steps. -/
def Obligations.EveryCommandEnds : Prop :=
  (∀ (i : Instr) (s : State), ∃ t, exec i s = .next t ∧ ticks 228 (beginCommand i s) = ⟨t, none⟩) ∧
  (∀ (c : Word) (s : State), ∃ t, dispatchWord c s = .next t)

/-- R33: T and W are never seen, nor is SEQ's counter between commands (log 7): two states that differ only there take the same
step to states that differ only there. -/
def Obligations.HiddenScratchIsNeverSeen : Prop :=
  ∀ s t : State, s.seq.phase = .idle → s.withoutScratch = t.withoutScratch →
    scratchForgotten (step s) = scratchForgotten (step t)
end

