-- ==== Sys2Proof/Laws/State.lean ====
section
/-! SUPPORT. What each named update of the state leaves in each field: one conjunct per field, true by unfolding the update once, so that no
later proof unfolds a record update. `raiseError`, which has a condition, is at the end. -/

namespace Sys2Proof.Machine

@[simp] theorem setPending_fields (s : State) (es : List HostEvent) :
    (s.setPending es).h = s.h ∧ (s.setPending es).t = s.t ∧ (s.setPending es).w = s.w ∧
    (s.setPending es).buf = s.buf ∧ (s.setPending es).bcnt = s.bcnt ∧ (s.setPending es).len = s.len ∧
    (s.setPending es).din = s.din ∧ (s.setPending es).done = s.done ∧ (s.setPending es).err = s.err ∧
    (s.setPending es).ecode = s.ecode ∧ (s.setPending es).seq = s.seq ∧ (s.setPending es).pending = es ∧
    (s.setPending es).results = s.results ∧ (s.setPending es).resetLine = s.resetLine ∧
    (s.setPending es).freeCount = s.freeCount := by
  exact ⟨rfl, rfl, rfl, rfl, rfl, rfl, rfl, rfl, rfl, rfl, rfl, rfl, rfl, rfl, rfl⟩

@[simp] theorem clearError_fields (s : State) :
    (clearError s).h = s.h ∧ (clearError s).t = s.t ∧ (clearError s).w = s.w ∧ (clearError s).buf = s.buf ∧
    (clearError s).bcnt = s.bcnt ∧ (clearError s).len = s.len ∧ (clearError s).din = s.din ∧
    (clearError s).done = s.done ∧ (clearError s).err = false ∧ (clearError s).ecode = 0#4 ∧
    (clearError s).seq = s.seq ∧ (clearError s).pending = s.pending ∧ (clearError s).results = s.results ∧
    (clearError s).resetLine = s.resetLine ∧ (clearError s).freeCount = s.freeCount := by
  exact ⟨rfl, rfl, rfl, rfl, rfl, rfl, rfl, rfl, rfl, rfl, rfl, rfl, rfl, rfl, rfl⟩

@[simp] theorem startMessage_fields (s : State) :
    (startMessage s).h = IV ∧ (startMessage s).t = s.t ∧ (startMessage s).w = s.w ∧
    (startMessage s).buf = Vector.replicate 64 0#8 ∧ (startMessage s).bcnt = 0#6 ∧ (startMessage s).len = 0#64 ∧
    (startMessage s).din = s.din ∧ (startMessage s).done = false ∧ (startMessage s).err = false ∧
    (startMessage s).ecode = 0#4 ∧ (startMessage s).seq = s.seq ∧ (startMessage s).pending = s.pending ∧
    (startMessage s).results = s.results ∧ (startMessage s).resetLine = s.resetLine ∧
    (startMessage s).freeCount = s.freeCount := by
  exact ⟨rfl, rfl, rfl, rfl, rfl, rfl, rfl, rfl, rfl, rfl, rfl, rfl, rfl, rfl, rfl⟩

@[simp] theorem discardScratch_fields (s : State) :
    (discardScratch s).h = s.h ∧ (discardScratch s).t = (Vector.ofFn fun i => Config.freeT s.freeCount i.val) ∧
    (discardScratch s).w = (Vector.ofFn fun i => Config.freeW s.freeCount i.val) ∧ (discardScratch s).buf = s.buf ∧
    (discardScratch s).bcnt = s.bcnt ∧ (discardScratch s).len = s.len ∧ (discardScratch s).din = s.din ∧
    (discardScratch s).done = s.done ∧ (discardScratch s).err = s.err ∧ (discardScratch s).ecode = s.ecode ∧
    (discardScratch s).seq = s.seq ∧ (discardScratch s).pending = s.pending ∧
    (discardScratch s).results = s.results ∧ (discardScratch s).resetLine = s.resetLine ∧
    (discardScratch s).freeCount = s.freeCount + 1 := by
  exact ⟨rfl, rfl, rfl, rfl, rfl, rfl, rfl, rfl, rfl, rfl, rfl, rfl, rfl, rfl, rfl⟩

@[simp] theorem applyReset_fields (s : State) :
    (applyReset s).h = IV ∧ (applyReset s).t = (Vector.ofFn fun i => Config.freeT s.freeCount i.val) ∧
    (applyReset s).w = (Vector.ofFn fun i => Config.freeW s.freeCount i.val) ∧
    (applyReset s).buf = Vector.replicate 64 0#8 ∧ (applyReset s).bcnt = 0#6 ∧ (applyReset s).len = 0#64 ∧
    (applyReset s).din = 0#32 ∧ (applyReset s).done = false ∧ (applyReset s).err = false ∧
    (applyReset s).ecode = 0#4 ∧ (applyReset s).seq = ⟨.idle, 0⟩ ∧ (applyReset s).pending = s.pending ∧
    (applyReset s).results = s.results ∧ (applyReset s).resetLine = s.resetLine ∧
    (applyReset s).freeCount = s.freeCount + 1 := by
  exact ⟨rfl, rfl, rfl, rfl, rfl, rfl, rfl, rfl, rfl, rfl, rfl, rfl, rfl, rfl, rfl⟩

@[simp] theorem setHashWord_fields (i : Nat) (v : Word) (s : State) :
    (setHashWord i v s).h = s.h.setIfInBounds i v ∧ (setHashWord i v s).t = s.t ∧ (setHashWord i v s).w = s.w ∧
    (setHashWord i v s).buf = s.buf ∧ (setHashWord i v s).bcnt = s.bcnt ∧ (setHashWord i v s).len = s.len ∧
    (setHashWord i v s).din = s.din ∧ (setHashWord i v s).done = s.done ∧ (setHashWord i v s).err = s.err ∧
    (setHashWord i v s).ecode = s.ecode ∧ (setHashWord i v s).seq = s.seq ∧ (setHashWord i v s).pending = s.pending ∧
    (setHashWord i v s).results = s.results ∧ (setHashWord i v s).resetLine = s.resetLine ∧
    (setHashWord i v s).freeCount = s.freeCount := by
  exact ⟨rfl, rfl, rfl, rfl, rfl, rfl, rfl, rfl, rfl, rfl, rfl, rfl, rfl, rfl, rfl⟩

@[simp] theorem setBlockWord_fields (j : Nat) (v : Word) (s : State) :
    (setBlockWord j v s).h = s.h ∧ (setBlockWord j v s).t = s.t ∧ (setBlockWord j v s).w = s.w ∧
    (setBlockWord j v s).buf = storeBlockWord j v s.buf ∧ (setBlockWord j v s).bcnt = s.bcnt ∧
    (setBlockWord j v s).len = s.len ∧ (setBlockWord j v s).din = s.din ∧ (setBlockWord j v s).done = s.done ∧
    (setBlockWord j v s).err = s.err ∧ (setBlockWord j v s).ecode = s.ecode ∧ (setBlockWord j v s).seq = s.seq ∧
    (setBlockWord j v s).pending = s.pending ∧ (setBlockWord j v s).results = s.results ∧
    (setBlockWord j v s).resetLine = s.resetLine ∧ (setBlockWord j v s).freeCount = s.freeCount := by
  simp [setBlockWord]

@[simp] theorem putByte_fields (b : Byte) (s : State) :
    (putByte b s).h = s.h ∧ (putByte b s).t = s.t ∧ (putByte b s).w = s.w ∧
    (putByte b s).buf = s.buf.set s.bcnt.toNat b s.bcnt.isLt ∧ (putByte b s).bcnt = s.bcnt ∧
    (putByte b s).len = s.len + 8#64 ∧ (putByte b s).din = s.din ∧ (putByte b s).done = s.done ∧
    (putByte b s).err = s.err ∧ (putByte b s).ecode = s.ecode ∧ (putByte b s).seq = s.seq ∧
    (putByte b s).pending = s.pending ∧ (putByte b s).results = s.results ∧ (putByte b s).resetLine = s.resetLine ∧
    (putByte b s).freeCount = s.freeCount := by
  exact ⟨rfl, rfl, rfl, rfl, rfl, rfl, rfl, rfl, rfl, rfl, rfl, rfl, rfl, rfl, rfl⟩

@[simp] theorem countByte_fields (s : State) :
    (countByte s).h = s.h ∧ (countByte s).t = s.t ∧ (countByte s).w = s.w ∧ (countByte s).buf = s.buf ∧
    (countByte s).bcnt = s.bcnt + 1#6 ∧ (countByte s).len = s.len ∧ (countByte s).din = s.din ∧
    (countByte s).done = s.done ∧ (countByte s).err = s.err ∧ (countByte s).ecode = s.ecode ∧
    (countByte s).seq = s.seq ∧ (countByte s).pending = s.pending ∧ (countByte s).results = s.results ∧
    (countByte s).resetLine = s.resetLine ∧ (countByte s).freeCount = s.freeCount := by
  exact ⟨rfl, rfl, rfl, rfl, rfl, rfl, rfl, rfl, rfl, rfl, rfl, rfl, rfl, rfl, rfl⟩

@[simp] theorem clearCount_fields (s : State) :
    (clearCount s).h = s.h ∧ (clearCount s).t = s.t ∧ (clearCount s).w = s.w ∧ (clearCount s).buf = s.buf ∧
    (clearCount s).bcnt = 0#6 ∧ (clearCount s).len = s.len ∧ (clearCount s).din = s.din ∧
    (clearCount s).done = s.done ∧ (clearCount s).err = s.err ∧ (clearCount s).ecode = s.ecode ∧
    (clearCount s).seq = s.seq ∧ (clearCount s).pending = s.pending ∧ (clearCount s).results = s.results ∧
    (clearCount s).resetLine = s.resetLine ∧ (clearCount s).freeCount = s.freeCount := by
  exact ⟨rfl, rfl, rfl, rfl, rfl, rfl, rfl, rfl, rfl, rfl, rfl, rfl, rfl, rfl, rfl⟩

@[simp] theorem putTerminator_fields (s : State) :
    (putTerminator s).h = s.h ∧ (putTerminator s).t = s.t ∧ (putTerminator s).w = s.w ∧
    (putTerminator s).buf = s.buf.set s.bcnt.toNat 0x80#8 s.bcnt.isLt ∧ (putTerminator s).bcnt = s.bcnt ∧
    (putTerminator s).len = s.len ∧ (putTerminator s).din = s.din ∧ (putTerminator s).done = s.done ∧
    (putTerminator s).err = s.err ∧ (putTerminator s).ecode = s.ecode ∧ (putTerminator s).seq = s.seq ∧
    (putTerminator s).pending = s.pending ∧ (putTerminator s).results = s.results ∧
    (putTerminator s).resetLine = s.resetLine ∧ (putTerminator s).freeCount = s.freeCount := by
  exact ⟨rfl, rfl, rfl, rfl, rfl, rfl, rfl, rfl, rfl, rfl, rfl, rfl, rfl, rfl, rfl⟩

@[simp] theorem padFirst_fields (s : State) :
    (padFirst s).h = s.h ∧ (padFirst s).t = s.t ∧ (padFirst s).w = s.w ∧
    (padFirst s).buf = zeroBytes (s.bcnt.toNat + 1) (if s.bcnt.toNat ≤ 55 then 56 else 64) (putTerminator s).buf ∧
    (padFirst s).bcnt = s.bcnt ∧ (padFirst s).len = s.len ∧ (padFirst s).din = s.din ∧ (padFirst s).done = s.done ∧
    (padFirst s).err = s.err ∧ (padFirst s).ecode = s.ecode ∧ (padFirst s).seq = s.seq ∧
    (padFirst s).pending = s.pending ∧ (padFirst s).results = s.results ∧ (padFirst s).resetLine = s.resetLine ∧
    (padFirst s).freeCount = s.freeCount := by
  simp [padFirst, putTerminator]

@[simp] theorem clearForLength_fields (s : State) :
    (clearForLength s).h = s.h ∧ (clearForLength s).t = s.t ∧ (clearForLength s).w = s.w ∧
    (clearForLength s).buf = zeroBytes 0 56 s.buf ∧ (clearForLength s).bcnt = s.bcnt ∧
    (clearForLength s).len = s.len ∧ (clearForLength s).din = s.din ∧ (clearForLength s).done = s.done ∧
    (clearForLength s).err = s.err ∧ (clearForLength s).ecode = s.ecode ∧ (clearForLength s).seq = s.seq ∧
    (clearForLength s).pending = s.pending ∧ (clearForLength s).results = s.results ∧
    (clearForLength s).resetLine = s.resetLine ∧ (clearForLength s).freeCount = s.freeCount := by
  simp [clearForLength]

@[simp] theorem writeLength_fields (s : State) :
    (writeLength s).h = s.h ∧ (writeLength s).t = s.t ∧ (writeLength s).w = s.w ∧
    (writeLength s).buf = putLength s.len s.buf ∧ (writeLength s).bcnt = s.bcnt ∧ (writeLength s).len = s.len ∧
    (writeLength s).din = s.din ∧ (writeLength s).done = s.done ∧ (writeLength s).err = s.err ∧
    (writeLength s).ecode = s.ecode ∧ (writeLength s).seq = s.seq ∧ (writeLength s).pending = s.pending ∧
    (writeLength s).results = s.results ∧ (writeLength s).resetLine = s.resetLine ∧
    (writeLength s).freeCount = s.freeCount := by
  simp [writeLength]

@[simp] theorem closeMessage_fields (s : State) :
    (closeMessage s).h = s.h ∧ (closeMessage s).t = s.t ∧ (closeMessage s).w = s.w ∧ (closeMessage s).buf = s.buf ∧
    (closeMessage s).bcnt = 0#6 ∧ (closeMessage s).len = s.len ∧ (closeMessage s).din = s.din ∧
    (closeMessage s).done = true ∧ (closeMessage s).err = s.err ∧ (closeMessage s).ecode = s.ecode ∧
    (closeMessage s).seq = s.seq ∧ (closeMessage s).pending = s.pending ∧ (closeMessage s).results = s.results ∧
    (closeMessage s).resetLine = s.resetLine ∧ (closeMessage s).freeCount = s.freeCount := by
  exact ⟨rfl, rfl, rfl, rfl, rfl, rfl, rfl, rfl, rfl, rfl, rfl, rfl, rfl, rfl, rfl⟩

@[simp] theorem startCompression_fields (s : State) :
    (startCompression s).h = s.h ∧ (startCompression s).t = s.t ∧ (startCompression s).w = s.w ∧
    (startCompression s).buf = s.buf ∧ (startCompression s).bcnt = s.bcnt ∧ (startCompression s).len = s.len ∧
    (startCompression s).din = s.din ∧ (startCompression s).done = s.done ∧ (startCompression s).err = s.err ∧
    (startCompression s).ecode = s.ecode ∧ (startCompression s).seq = enterPhase .load s ∧
    (startCompression s).pending = s.pending ∧ (startCompression s).results = s.results ∧
    (startCompression s).resetLine = s.resetLine ∧ (startCompression s).freeCount = s.freeCount := by
  exact ⟨rfl, rfl, rfl, rfl, rfl, rfl, rfl, rfl, rfl, rfl, rfl, rfl, rfl, rfl, rfl⟩

/-- Reset leaves nothing of the state but the waiting events and the read results (R35, R129; log 20). -/
@[simp] theorem assertReset_fields (s : State) :
    (assertReset s).h = IV ∧ (assertReset s).t = (Vector.ofFn fun i => Config.freeT s.freeCount i.val) ∧
    (assertReset s).w = (Vector.ofFn fun i => Config.freeW s.freeCount i.val) ∧
    (assertReset s).buf = Vector.replicate 64 0#8 ∧ (assertReset s).bcnt = 0#6 ∧ (assertReset s).len = 0#64 ∧
    (assertReset s).din = 0#32 ∧ (assertReset s).done = false ∧ (assertReset s).err = false ∧
    (assertReset s).ecode = 0#4 ∧ (assertReset s).seq = ⟨.idle, 0⟩ ∧ (assertReset s).pending = s.pending ∧
    (assertReset s).results = s.results ∧ (assertReset s).resetLine = true ∧
    (assertReset s).freeCount = s.freeCount + 1 := by
  exact ⟨rfl, rfl, rfl, rfl, rfl, rfl, rfl, rfl, rfl, rfl, rfl, rfl, rfl, rfl, rfl⟩

@[simp] theorem enterPhase_phase (p : Phase) (s : State) : (enterPhase p s).phase = p := rfl

@[simp] theorem noteResult_fields (v : Word) (s : State) :
    (noteResult v s).h = s.h ∧ (noteResult v s).t = s.t ∧ (noteResult v s).w = s.w ∧ (noteResult v s).buf = s.buf ∧
    (noteResult v s).bcnt = s.bcnt ∧ (noteResult v s).len = s.len ∧ (noteResult v s).din = s.din ∧
    (noteResult v s).done = s.done ∧ (noteResult v s).err = s.err ∧ (noteResult v s).ecode = s.ecode ∧
    (noteResult v s).seq = s.seq ∧ (noteResult v s).pending = s.pending ∧
    (noteResult v s).results = s.results ++ [v] ∧ (noteResult v s).resetLine = s.resetLine ∧
    (noteResult v s).freeCount = s.freeCount := by
  exact ⟨rfl, rfl, rfl, rfl, rfl, rfl, rfl, rfl, rfl, rfl, rfl, rfl, rfl, rfl, rfl⟩

/-- `raise Error(code)` (R112): only ERR and ECODE can change. -/
@[simp] theorem raiseError_fields (c : ErrorCode) (s : State) :
    (raiseError c s).h = s.h ∧ (raiseError c s).t = s.t ∧ (raiseError c s).w = s.w ∧ (raiseError c s).buf = s.buf ∧
    (raiseError c s).bcnt = s.bcnt ∧ (raiseError c s).len = s.len ∧ (raiseError c s).din = s.din ∧
    (raiseError c s).done = s.done ∧ (raiseError c s).err = true ∧ (raiseError c s).seq = s.seq ∧
    (raiseError c s).pending = s.pending ∧ (raiseError c s).results = s.results ∧
    (raiseError c s).resetLine = s.resetLine ∧ (raiseError c s).freeCount = s.freeCount := by
  unfold raiseError
  split <;> simp [*]

/-- The code of the first error is kept (R112). -/
theorem raiseError_ecode (c : ErrorCode) (s : State) :
    (raiseError c s).ecode = if s.err then s.ecode else c.bits := by
  unfold raiseError
  split <;> rfl

end Sys2Proof.Machine
end

