-- ==== Sys2Proof/Laws/Compression.lean ====
section
/-! SUPPORT. What a micro-step and a compression can do (spec/42_compression.md R85 to R89): the order SEQ goes through, and
the fields a compression leaves alone. -/

namespace Sys2Proof.Machine

/-- The position after the micro-step at a position (R85 to R88); `n` is the counter of the free values (log 7). -/
def nextSeq (n : Nat) (q : Seq) : Seq :=
  match q.phase with
  | .idle => q
  | .load => ⟨.expand, 16⟩
  | .expand =>
    if 16 ≤ q.t.val then (if ht : q.t.val + 1 < 64 then ⟨.expand, ⟨q.t.val + 1, ht⟩⟩ else ⟨.round, 0⟩) else q
  | .round =>
    if ht : q.t.val + 1 < 64 then ⟨.round, ⟨q.t.val + 1, ht⟩⟩
    else ⟨.fold, Config.freeCounter n (phaseNumber .fold)⟩
  | .fold => ⟨.idle, Config.freeCounter n (phaseNumber .idle)⟩

/-- SEQ moves by its own value alone: no micro-step is skipped or repeated because of data (R92). -/
theorem microStep_seq (s : State) : (microStep s).seq = nextSeq s.freeCount s.seq := by
  unfold microStep nextSeq
  split <;> simp_all [loadStep, expandStep, roundStep, foldStep, enterPhase]
  split <;> rfl

/-- The fields no micro-step writes. -/
@[simp] theorem microStep_frame (s : State) :
    (microStep s).buf = s.buf ∧ (microStep s).bcnt = s.bcnt ∧ (microStep s).len = s.len ∧
    (microStep s).din = s.din ∧ (microStep s).done = s.done ∧ (microStep s).err = s.err ∧
    (microStep s).ecode = s.ecode ∧ (microStep s).pending = s.pending ∧ (microStep s).results = s.results ∧
    (microStep s).resetLine = s.resetLine := by
  unfold microStep
  split <;> simp [loadStep, expandStep, roundStep, foldStep]
  split <;> simp

/-- Micro-steps compose. -/
theorem microSteps_add (m n : Nat) (s : State) : microSteps (m + n) s = microSteps n (microSteps m s) := by
  induction m generalizing s with
  | zero => simp [microSteps]
  | succ m ih => rw [Nat.succ_add]; exact ih _

/-- One more micro-step at the end. -/
theorem microSteps_succ (n : Nat) (s : State) : microSteps (n + 1) s = microStep (microSteps n s) :=
  microSteps_add n 1 s

/-- The position after `k` micro-steps, as long as no FOLD draws new free values. -/
def nextSeqs (n : Nat) : Nat → Seq → Seq
  | 0, q => q
  | k + 1, q => nextSeqs n k (nextSeq n q)

/-- Only FOLD draws new free values. -/
theorem microStep_freeCount {s : State} (h : s.seq.phase ≠ .fold) : (microStep s).freeCount = s.freeCount := by
  unfold microStep
  split <;> simp_all [loadStep, expandStep, roundStep]
  split <;> rfl

/-- An idle sequencer stays as it is. -/
theorem nextSeqs_idle (n k : Nat) {q : Seq} (h : q.phase = .idle) : nextSeqs n k q = q := by
  induction k with
  | zero => rfl
  | succ k ih => simp [nextSeqs, nextSeq, h, ih]

theorem microSteps_seq (k : Nat) (s : State) : (microSteps k s).seq = nextSeqs s.freeCount k s.seq := by
  induction k generalizing s with
  | zero => rfl
  | succ k ih =>
    rw [microSteps, ih, microStep_seq, nextSeqs]
    by_cases h : s.seq.phase = .fold
    · have hi : (nextSeq s.freeCount s.seq).phase = .idle := by simp [nextSeq, h]
      rw [nextSeqs_idle _ _ hi, nextSeqs_idle _ _ hi]
    · rw [microStep_freeCount h]

@[simp] theorem microSteps_frame (n : Nat) (s : State) :
    (microSteps n s).buf = s.buf ∧ (microSteps n s).bcnt = s.bcnt ∧ (microSteps n s).len = s.len ∧
    (microSteps n s).din = s.din ∧ (microSteps n s).done = s.done ∧ (microSteps n s).err = s.err ∧
    (microSteps n s).ecode = s.ecode ∧ (microSteps n s).pending = s.pending ∧
    (microSteps n s).results = s.results ∧ (microSteps n s).resetLine = s.resetLine := by
  induction n generalizing s with
  | zero => simp [microSteps]
  | succ n ih => simp [microSteps, ih]

theorem nextSeqs_add (n k l : Nat) (q : Seq) : nextSeqs n (k + l) q = nextSeqs n l (nextSeqs n k q) := by
  induction k generalizing q with
  | zero => rw [Nat.zero_add]; rfl
  | succ k ih => rw [Nat.succ_add]; exact ih _

/-- EXPAND t is followed by EXPAND t + 1, and so on (R86). -/
theorem nextSeqs_expand (n k t : Nat) (ht : 16 ≤ t) (h : t + k < 64) :
    nextSeqs n k ⟨.expand, ⟨t, by omega⟩⟩ = ⟨.expand, ⟨t + k, h⟩⟩ := by
  induction k generalizing t with
  | zero => rfl
  | succ k ih =>
    have hn : nextSeq n ⟨.expand, ⟨t, by omega⟩⟩ = ⟨.expand, ⟨t + 1, by omega⟩⟩ := by
      simp [nextSeq, ht, show t + 1 < 64 by omega]
    rw [nextSeqs, hn, ih (t + 1) (by omega) (by omega)]
    simp only [Nat.add_assoc, Nat.add_comm 1 k]

/-- ROUND t is followed by ROUND t + 1, and so on (R87). -/
theorem nextSeqs_round (n k t : Nat) (h : t + k < 64) :
    nextSeqs n k ⟨.round, ⟨t, by omega⟩⟩ = ⟨.round, ⟨t + k, h⟩⟩ := by
  induction k generalizing t with
  | zero => rfl
  | succ k ih =>
    have hn : nextSeq n ⟨.round, ⟨t, by omega⟩⟩ = ⟨.round, ⟨t + 1, by omega⟩⟩ := by
      simp [nextSeq, show t + 1 < 64 by omega]
    rw [nextSeqs, hn, ih (t + 1) (by omega)]
    simp only [Nat.add_assoc, Nat.add_comm 1 k]

/-- The 114 positions of a compression end at IDLE (R89), with the free counter of that entry (log 7). -/
theorem nextSeqs_load (n : Nat) (t : Fin 64) :
    nextSeqs n compressionSteps ⟨.load, t⟩ = ⟨.idle, Config.freeCounter n (phaseNumber .idle)⟩ := by
  have he : nextSeqs n 47 ⟨.expand, 16⟩ = ⟨.expand, ⟨63, by decide⟩⟩ := nextSeqs_expand n 47 16 (by decide) (by decide)
  have hr : nextSeqs n 63 ⟨.round, 0⟩ = ⟨.round, ⟨63, by decide⟩⟩ := nextSeqs_round n 63 0 (by decide)
  rw [show compressionSteps = 1 + (47 + (1 + (63 + 2))) from rfl, nextSeqs_add, nextSeqs_add, nextSeqs_add, nextSeqs_add]
  rw [show nextSeqs n 1 ⟨.load, t⟩ = ⟨.expand, 16⟩ from rfl, he]
  rw [show nextSeqs n 1 ⟨.expand, ⟨63, by decide⟩⟩ = ⟨.round, 0⟩ from rfl, hr]
  rfl

/-- A compression ends at IDLE and writes only H, T, W, SEQ and the model's free-value counter. -/
@[simp] theorem compression_frame (s : State) :
    (compression s).seq.phase = .idle ∧ (compression s).buf = s.buf ∧ (compression s).bcnt = s.bcnt ∧
    (compression s).len = s.len ∧ (compression s).din = s.din ∧ (compression s).done = s.done ∧
    (compression s).err = s.err ∧ (compression s).ecode = s.ecode ∧ (compression s).pending = s.pending ∧
    (compression s).results = s.results ∧ (compression s).resetLine = s.resetLine := by
  simp [compression, microSteps_seq, enterPhase, nextSeqs_load]

end Sys2Proof.Machine
end

