-- ==== Sys2Proof/Laws/Ops.lean ====
section
/-! SUPPORT. The inversion of the shared operation `command`: everything one command can do (spec/60_exceptions.md R118),
and the frames of the streaming loops. -/

namespace Sys2Proof.Machine

/-- Everything `command` can do: record ILLEGAL_COMMAND, be ignored by the gate, record its own error, or run. -/
theorem command_cases (legal : Bool) (error : State → Option ErrorCode) (run : State → State) (s : State) :
    (legal = false ∧ command legal error run s = raiseError .illegalCommand s) ∨
    (legal = true ∧ s.err = true ∧ command legal error run s = s) ∨
    (legal = true ∧ s.err = false ∧ ∃ code, error s = some code ∧ command legal error run s = raiseError code s) ∨
    (legal = true ∧ s.err = false ∧ error s = none ∧ command legal error run s = run s) := by
  cases hl : legal
  · exact .inl ⟨rfl, by simp [command]⟩
  · cases he : s.err
    · cases hc : error s with
      | some code => exact .inr (.inr (.inl ⟨rfl, rfl, code, rfl, by simp [command, he, hc]⟩))
      | none => exact .inr (.inr (.inr ⟨rfl, rfl, rfl, by simp [command, he, hc]⟩))
    · exact .inr (.inl ⟨rfl, rfl, by simp [command, he]⟩)

/-- A legal command that no check stops has its effect. -/
theorem command_runs {error : State → Option ErrorCode} {run : State → State} {s : State}
    (he : s.err = false) (hc : error s = none) : command true error run s = run s := by
  simp [command, he, hc]

/-- The error gate (R119). -/
theorem command_gated {error : State → Option ErrorCode} {run : State → State} {s : State}
    (he : s.err = true) : command true error run s = s := by
  simp [command, he]

/-- A legal command stopped by its own check (R118). -/
theorem command_raises {error : State → Option ErrorCode} {run : State → State} {s : State} {code : ErrorCode}
    (he : s.err = false) (hc : error s = some code) : command true error run s = raiseError code s := by
  simp [command, he, hc]

/-- A field that the effect of a command and recording an error leave alone, the command leaves alone. -/
theorem command_preserves {α : Type} (f : State → α) {legal : Bool} {error : State → Option ErrorCode}
    {run : State → State} {s : State} (hr : ∀ c, f (raiseError c s) = f s) (hrun : f (run s) = f s) :
    f (command legal error run s) = f s := by
  obtain ⟨_, h⟩ | ⟨_, _, h⟩ | ⟨_, _, c, _, h⟩ | ⟨_, _, _, h⟩ := command_cases legal error run s <;> simp [h, hr, hrun]

/-- The fields one turn of ABSORB's loop leaves alone (R105). -/
@[simp] theorem absorbByte_frame (k : Nat) (s : State) :
    (absorbByte k s).din = s.din ∧ (absorbByte k s).done = s.done ∧ (absorbByte k s).err = s.err ∧
    (absorbByte k s).ecode = s.ecode ∧ (absorbByte k s).pending = s.pending ∧
    (absorbByte k s).results = s.results ∧ (absorbByte k s).resetLine = s.resetLine ∧
    (absorbByte k s).len = s.len + 8#64 := by
  unfold absorbByte
  split <;> simp

/-- The fields ABSORB's loop leaves alone (R105). -/
@[simp] theorem absorbBytes_frame (n k : Nat) (s : State) :
    (absorbBytes n k s).din = s.din ∧ (absorbBytes n k s).done = s.done ∧ (absorbBytes n k s).err = s.err ∧
    (absorbBytes n k s).ecode = s.ecode ∧ (absorbBytes n k s).pending = s.pending ∧
    (absorbBytes n k s).results = s.results ∧ (absorbBytes n k s).resetLine = s.resetLine := by
  induction n generalizing k s with
  | zero => simp [absorbBytes]
  | succ n ih => simp [absorbBytes, ih]

/-- BCNT counts modulo 64 (R24). -/
theorem absorbByte_bcnt (k : Nat) (s : State) : (absorbByte k s).bcnt = s.bcnt + 1#6 := by
  unfold absorbByte
  split
  · next h => simp [h]
  · simp

/-- An idle sequencer is idle after each absorbed byte (R29). -/
theorem absorbByte_seq {k : Nat} {s : State} (hs : s.seq.phase = .idle) : (absorbByte k s).seq.phase = .idle := by
  unfold absorbByte
  split <;> simp [hs]

theorem absorbBytes_seq {n k : Nat} {s : State} (hs : s.seq.phase = .idle) :
    (absorbBytes n k s).seq.phase = .idle := by
  induction n generalizing k s with
  | zero => exact hs
  | succ n ih => exact ih (absorbByte_seq hs)

/-- BCNT and LEN after ABSORB's loop (R105). -/
theorem absorbBytes_counts (n k : Nat) (s : State) :
    (absorbBytes n k s).bcnt = s.bcnt + BitVec.ofNat 6 n ∧
    (absorbBytes n k s).len = s.len + BitVec.ofNat 64 (8 * n) := by
  induction n generalizing k s with
  | zero => simp [absorbBytes]
  | succ n ih =>
    obtain ⟨h1, h2⟩ := ih (k + 1) (absorbByte k s)
    refine ⟨?_, ?_⟩
    · rw [absorbBytes, h1, absorbByte_bcnt]
      apply BitVec.eq_of_toNat_eq
      simp only [BitVec.toNat_add, BitVec.toNat_ofNat]
      omega
    · rw [absorbBytes, h2, (absorbByte_frame k s).2.2.2.2.2.2.2]
      apply BitVec.eq_of_toNat_eq
      simp only [BitVec.toNat_add, BitVec.toNat_ofNat]
      omega

/-- The fields PADTAIL leaves alone (R66). -/
@[simp] theorem padtail_frame (s : State) :
    (padtail s).seq.phase = .idle ∧ (padtail s).bcnt = s.bcnt ∧ (padtail s).len = s.len ∧ (padtail s).din = s.din ∧
    (padtail s).done = s.done ∧ (padtail s).err = s.err ∧ (padtail s).ecode = s.ecode ∧
    (padtail s).pending = s.pending ∧ (padtail s).results = s.results ∧ (padtail s).resetLine = s.resetLine := by
  unfold padtail
  split <;> simp

end Sys2Proof.Machine
end

