-- ==== Sys2Proof/Laws/Bus.lean ====
section
/-! SUPPORT. What a step does with the oldest event (spec/20_memory.md R47), and how runs compose. -/

namespace Sys2Proof.Machine

/-- An engine with nothing waiting stays as it is (log 1). -/
theorem step_nothing_waits {s : State} (hs : s.seq.phase = .idle) (hp : s.pending = []) : step s = .next s := by
  simp [step, serve, hs, hp]

/-- An idle engine performs the oldest event. -/
theorem step_performs {s : State} {e : HostEvent} {es : List HostEvent} (hs : s.seq.phase = .idle)
    (hp : s.pending = e :: es) : step s = perform e (s.setPending es) := by
  simp [step, serve, hs, hp]

/-- An aligned 32-bit access inside the window reaches its register. -/
theorem accessSlot_offset {off : Nat} {op : AccessOp} {r : Slot} (hr : slotAt off = some r) (ho : off < 64) :
    accessSlot (accessOffset off op) = .ok r := by
  simp [accessSlot, accessOffset, hr, ho]

/-- A host write that waits at the head of a ready engine's events. -/
theorem step_write {s : State} {off : Nat} {v : Word} {r : Slot} {es : List HostEvent} (hs : s.Ready)
    (hr : slotAt off = some r) (ho : off < 64) (hp : s.pending = writeEvent off v :: es) :
    step s = regWrite r v (s.setPending es) := by
  rw [step_performs hs.1 hp]
  simp [writeEvent, perform, performAccess, hs.2, accessSlot_offset hr ho, regAccess]
  rfl

/-- A host read that waits at the head of a ready engine's events. -/
theorem step_read {s : State} {off : Nat} {r : Slot} {es : List HostEvent} (hs : s.Ready)
    (hr : slotAt off = some r) (ho : off < 64) (hp : s.pending = readEvent off :: es) :
    step s = .next (noteResult (regRead r (s.setPending es)) (s.setPending es)) := by
  rw [step_performs hs.1 hp]
  simp [readEvent, perform, performAccess, hs.2, accessSlot_offset hr ho, regAccess]
  rfl

@[simp] theorem runSteps_zero (s : State) : runSteps 0 s = .next s := rfl

/-- A run is its first step and then the rest. -/
theorem runSteps_succ {n : Nat} {s t : State} (h : step s = .next t) : runSteps (n + 1) s = runSteps n t := by
  simp only [runSteps, Host.Core.run]
  have : Sys2Proof.core.step s = .next t := h
  rw [this]

/-- Runs compose. -/
theorem runSteps_add {m n : Nat} {s t : State} (h : runSteps m s = .next t) :
    runSteps (m + n) s = runSteps n t := by
  induction m generalizing s with
  | zero =>
    simp only [runSteps_zero, Host.Outcome.next.injEq] at h
    simp [h]
  | succ m ih =>
    cases hstep : step s with
    | next u => rw [Nat.succ_add, runSteps_succ hstep]; exact ih (by rwa [runSteps_succ hstep] at h)
    | fault r =>
      have : Sys2Proof.core.step s = .fault r := hstep
      simp [runSteps, Host.Core.run, this] at h
    | refused r =>
      have : Sys2Proof.core.step s = .refused r := hstep
      simp [runSteps, Host.Core.run, this] at h

end Sys2Proof.Machine
end

