-- ==== Sys2Proof/Laws/Bytes.lean ====
section
/-! SUPPORT. The small lemmas of the byte lanes and of the updates of BUF (spec/20_memory.md R39, spec/40_padding.md R66,
spec/44_commands.md R108). -/

namespace Sys2Proof.Machine

@[simp] theorem lane_be32_0 (a b c d : Byte) : lane (be32 a b c d) 0 = a := by
  ext i hi
  have h1 : ¬ 24 - 8 * 0 + i < 8 := by omega
  have h2 : ¬ 24 - 8 * 0 + i - 8 < 8 := by omega
  have h3 : ¬ 24 - 8 * 0 + i - 8 - 8 < 8 := by omega
  have h4 : 24 - 8 * 0 + i - 8 - 8 - 8 = i := by omega
  simp only [lane, be32, BitVec.getElem_extractLsb', BitVec.getLsbD_append, h1, h2, h3, h4, if_false,
    BitVec.getLsbD_eq_getElem hi]

@[simp] theorem lane_be32_1 (a b c d : Byte) : lane (be32 a b c d) 1 = b := by
  ext i hi
  have h1 : ¬ 24 - 8 * 1 + i < 8 := by omega
  have h2 : ¬ 24 - 8 * 1 + i - 8 < 8 := by omega
  have h3 : 24 - 8 * 1 + i - 8 - 8 = i := by omega
  simp only [lane, be32, BitVec.getElem_extractLsb', BitVec.getLsbD_append, h1, h2, h3, hi, if_false, if_true,
    BitVec.getLsbD_eq_getElem hi]

@[simp] theorem lane_be32_2 (a b c d : Byte) : lane (be32 a b c d) 2 = c := by
  ext i hi
  have h1 : ¬ 24 - 8 * 2 + i < 8 := by omega
  have h2 : 24 - 8 * 2 + i - 8 = i := by omega
  simp only [lane, be32, BitVec.getElem_extractLsb', BitVec.getLsbD_append, h1, h2, hi, if_false, if_true,
    BitVec.getLsbD_eq_getElem hi]

@[simp] theorem lane_be32_3 (a b c d : Byte) : lane (be32 a b c d) 3 = d := by
  ext i hi
  have h1 : 24 - 8 * 3 + i = i := by omega
  simp only [lane, be32, BitVec.getElem_extractLsb', BitVec.getLsbD_append, h1, hi, if_true,
    BitVec.getLsbD_eq_getElem hi]

/-- The four lanes of a word are the word (R70). -/
@[simp] theorem be32_lanes (v : Word) : be32 (lane v 0) (lane v 1) (lane v 2) (lane v 3) = v := by
  apply BitVec.eq_of_getLsbD_eq
  intro i hi
  simp only [lane, be32, BitVec.getLsbD_append, BitVec.getLsbD_extractLsb']
  split
  · next h => simp [h]
  · split
    · next h => simp [h, show 24 - 8 * 2 + (i - 8) = i by omega]
    · split
      · next h => simp [h, show 24 - 8 * 1 + (i - 8 - 8) = i by omega]
      · simp [show i - 8 - 8 - 8 < 8 by omega, show 24 - 8 * 0 + (i - 8 - 8 - 8) = i by omega]

@[simp] theorem storeBlockWord_getElem (j : Nat) (v : Word) (buf : Vector Byte 64) (n : Nat) (hn : n < 64) :
    (storeBlockWord j v buf)[n] = if n / 4 = j then lane v (n % 4) else buf[n] := by
  simp [storeBlockWord]

@[simp] theorem zeroBytes_getElem (lo hi : Nat) (buf : Vector Byte 64) (n : Nat) (hn : n < 64) :
    (zeroBytes lo hi buf)[n] = if lo ≤ n ∧ n < hi then 0#8 else buf[n] := by
  simp [zeroBytes]

@[simp] theorem putLength_getElem (len : BitVec 64) (buf : Vector Byte 64) (n : Nat) (hn : n < 64) :
    (putLength len buf)[n] = if 56 ≤ n then lenByte len (n - 56) else buf[n] := by
  simp [putLength]

@[simp] theorem blockWords_getElem (buf : Vector Byte 64) (j : Nat) (hj : j < 16) :
    (blockWords buf)[j] = blockWord buf ⟨j, hj⟩ := by
  simp [blockWords]

@[simp] theorem toBytes_nil : toBytes [] = [] := rfl

@[simp] theorem toBytes_cons (v : Word) (ws : List Word) : toBytes (v :: ws) = wordBytes v ++ toBytes ws := by
  simp [toBytes]

@[simp] theorem wordBytes_length (v : Word) : (wordBytes v).length = 4 := rfl

theorem toBytes_length (ws : List Word) : (toBytes ws).length = 4 * ws.length := by
  induction ws with
  | nil => rfl
  | cons v ws ih => simp [ih]; omega

end Sys2Proof.Machine
end

