-- ==== Sys2Proof/Laws/PerInstr.lean ====
section
/-! SUPPORT. A family of facts about each command as syntax: its encoding matches its own row of the opcode map, and the
OP field of the encoding names it (spec/30_encoding.md R53, R54). -/

namespace Sys2Proof.Laws.EncodingMatchesRow

/-- The OP of each command (R54). -/
def opOf : Instr → BitVec 4
  | .nop => 0#4
  | .init => 1#4
  | .absorb _ => 2#4
  | .finish => 3#4
  | .loadh _ => 4#4
  | .loadm _ => 5#4
  | .compress => 6#4

/-- A well-formed command's word matches its row and carries its OP. -/
def Statement (i : Instr) : Prop :=
  i.wellFormed = true → i.row.selects (encode i) = true ∧ opField (encode i) = opOf i

theorem nop : Statement .nop := by
  unfold Statement
  decide

theorem init : Statement .init := by
  unfold Statement
  decide

theorem absorb (nb : Nat) : Statement (.absorb nb) := by
  intro h
  simp only [Instr.wellFormed, decide_eq_true_eq] at h
  obtain ⟨h1, h2⟩ := h
  interval_cases nb <;> decide

theorem finish : Statement .finish := by
  unfold Statement
  decide

theorem loadh (i : Nat) : Statement (.loadh i) := by
  intro h
  simp only [Instr.wellFormed, decide_eq_true_eq] at h
  interval_cases i <;> decide

theorem loadm (j : Nat) : Statement (.loadm j) := by
  intro h
  simp only [Instr.wellFormed, decide_eq_true_eq] at h
  interval_cases j <;> decide

theorem compress : Statement .compress := by
  unfold Statement
  decide

end Sys2Proof.Laws.EncodingMatchesRow
end

