-- ==== Sys2Proof/Tests/Slice0.lean ====
section
/-! SUPPORT. The model's own tests. Every expected value is written out from the spec: from the encodings of
spec/30_encoding.md, the examples of the rules, and the vectors of spec/95_test_vectors.md, named where they are used. The
last part shows, for every obligation with hypotheses, a concrete state and operands that meet all of them. -/

namespace Sys2Proof.Tests

open Sys2Proof Sys2Proof.Machine

/-! ### Well-formedness -/

theorem test_absorb_of_no_byte_is_refused : (Instr.absorb 0).wellFormed = false := by decide

theorem test_absorb_of_five_bytes_is_refused : (Instr.absorb 5).wellFormed = false := by decide

theorem test_loadh_of_word_eight_is_refused : (Instr.loadh 8).wellFormed = false := by decide

theorem test_loadm_of_word_sixteen_is_refused : (Instr.loadm 16).wellFormed = false := by decide

theorem test_boundary_operands_are_accepted :
    (Instr.absorb 1).wellFormed = true ∧ (Instr.absorb 4).wellFormed = true ∧ (Instr.loadh 7).wellFormed = true ∧
      (Instr.loadm 15).wellFormed = true := by decide

/-! ### Decoding: words written out from the patterns of R54 and the encodings of R58 -/

theorem test_decode_nop : decode 0b00000000000000000000000000000000#32 = .command .nop := by decide

theorem test_decode_init : decode 0b00000000000000000000000000000001#32 = .command .init := by decide

/-- The four words of `absorb NB`: 0x00000002, 0x00000102, 0x00000202, 0x00000302. -/
theorem test_decode_absorb :
    decode 0x00000002#32 = .command (.absorb 1) ∧ decode 0x00000102#32 = .command (.absorb 2) ∧
      decode 0x00000202#32 = .command (.absorb 3) ∧ decode 0x00000302#32 = .command (.absorb 4) := by decide

theorem test_decode_finish : decode 0b00000000000000000000000000000011#32 = .command .finish := by decide

/-- `loadh i` for i = 0, 5, 7, the index in bits 6:4. -/
theorem test_decode_loadh :
    decode 0b00000000000000000000000000000100#32 = .command (.loadh 0) ∧
      decode 0b00000000000000000000000001010100#32 = .command (.loadh 5) ∧
      decode 0b00000000000000000000000001110100#32 = .command (.loadh 7) := by decide

/-- `loadm j` for j = 0, 9, 15, the index in bits 7:4. -/
theorem test_decode_loadm :
    decode 0b00000000000000000000000000000101#32 = .command (.loadm 0) ∧
      decode 0b00000000000000000000000010010101#32 = .command (.loadm 9) ∧
      decode 0b00000000000000000000000011110101#32 = .command (.loadm 15) := by decide

theorem test_decode_compress : decode 0b00000000000000000000000000000110#32 = .command .compress := by decide

/-- The illegal words of V-ERR-1, each under its bullet of R56. -/
theorem test_illegal_words_are_rejected_by_name :
    decode 0x00000007#32 = .illegal .opcode ∧ decode 0x0000000F#32 = .illegal .opcode ∧
      decode 0x00000400#32 = .illegal .reservedBits ∧ decode 0x80000001#32 = .illegal .reservedBits ∧
      decode 0x00000011#32 = .illegal .index ∧ decode 0x00000084#32 = .illegal .index ∧
      decode 0x00000012#32 = .illegal .index ∧ decode 0x00000105#32 = .illegal .byteCount ∧
      decode 0x00000103#32 = .illegal .byteCount := by decide

theorem test_decode_table_word :
    decodeTableWord 32 0x00000302 = some (.absorb 4) ∧ decodeTableWord 32 0x00000007 = none := by decide

/-! ### The commands, one step each -/

/-- What `f` reads in the next state of an outcome. -/
def seen {α : Type} (o : Result) (f : State → α) : Option α :=
  match o with
  | .next t => some (f t)
  | .fault _ => none
  | .refused _ => none

/-- The reset state with DIN, BCNT and LEN preset. -/
def withMessage (din : Word) (bcnt : BitVec 6) (len : BitVec 64) : State :=
  { State.reset with din := din, bcnt := bcnt, len := len }

/-- The reset state with an error recorded (V-ERR-12's start: STATUS 00000012). -/
def withError : State := { State.reset with err := true, ecode := 1#4 }

/-- V-CMD-1. -/
theorem test_nop_leaves_status : seen (exec .nop State.reset) statusWord = some 0x00000000#32 := by decide

/-- V-ERR-15, V-CMD-13: INIT clears the error and keeps DIN. -/
theorem test_init_clears_error_keeps_din :
    seen (exec .init { withError with din := 0xDEADBEEF#32 }) (fun t => (statusWord t, t.din)) =
      some (0x00000000#32, 0xDEADBEEF#32) := by decide

/-- V-CMD-12: INIT drops the bytes absorbed so far. -/
theorem test_init_drops_message :
    seen (exec .init { withMessage 0#32 3#6 24#64 with buf := Vector.replicate 64 0x61#8 })
      (fun t => (t.h, t.bcnt, t.len, t.buf[0])) = some (IV, 0#6, 0#64, 0#8) := by decide

set_option maxRecDepth 100000 in
/-- The example of R105 (V-CMD-6), with four different bytes: an ABSORB at BCNT 62 puts two bytes at BUF[62..63], compresses,
and puts the other two at BUF[0..1]; LEN becomes 528. -/
theorem test_absorb_crosses_the_block_boundary :
    seen (exec (.absorb 4) { withMessage 0x61626364#32 62#6 496#64 with buf := Vector.replicate 64 0x61#8 })
      (fun t => (t.buf[61], t.buf[62], t.buf[63], t.buf[0], t.buf[1], t.buf[2], statusWord t, t.len)) =
      some (0x61#8, 0x61#8, 0x62#8, 0x63#8, 0x64#8, 0x61#8, 0x00000200#32, 528#64) := by decide

set_option maxRecDepth 100000 in
/-- V-CMD-2: the empty message (V-CMP-13). -/
theorem test_finish_of_the_empty_message :
    seen (exec .finish State.reset) (fun t => (t.h, statusWord t)) =
      some (#v[0xD14A028C#32, 0x2A3A2BC9#32, 0x476102BB#32, 0x288234C4#32, 0x15A2B01F#32, 0x828EA62A#32, 0xC5B3E42F#32,
        0xBDD387CB#32], 0x00000001#32) := by decide

set_option maxRecDepth 100000 in
/-- P5, line 29: `finish` at BCNT 56, two compressions; here for the message `a*56` (V-HASH-5). -/
theorem test_finish_with_two_blocks :
    seen (exec .finish { withMessage 0#32 56#6 448#64 with buf := Vector.replicate 64 0x61#8 })
      (fun t => (t.h, statusWord t, t.len)) =
      some (#v[0xD40854FC#32, 0x9CAF1720#32, 0x67136F2E#32, 0x29E1380B#32, 0x14626BF6#32, 0xF0DD0677#32, 0x9F820DCD#32,
        0xF97FA6DB#32], 0x00000001#32, 0x1C0#64) := by decide

/-- The example of R107: `setH 7, 0` then `rd H7`; H6 keeps its value. -/
theorem test_loadh_writes_the_named_word :
    seen (exec (.loadh 7) State.reset) (fun t => (t.h[7], t.h[6])) = some (0#32, 0x64F98FA7#32) := by decide

/-- V-ERR-12: the gate ignores LOADH. -/
theorem test_loadh_is_ignored_after_an_error :
    seen (exec (.loadh 0) { withError with din := 0xDEADBEEF#32 }) (fun t => (statusWord t, t.h[0])) =
      some (0x00000012#32, 0xC1059ED8#32) := by decide

/-- V-WORD-8, at word 15: the first byte of DIN goes to BUF[60]. -/
theorem test_loadm_stores_big_endian :
    seen (exec (.loadm 15) (withMessage 0x61626380#32 0#6 0#64))
      (fun t => (t.buf[59], t.buf[60], t.buf[61], t.buf[62], t.buf[63])) =
      some (0x00#8, 0x61#8, 0x62#8, 0x63#8, 0x80#8) := by decide

/-- V-ERR-6. -/
theorem test_loadm_in_a_partial_block :
    seen (exec (.loadm 0) (withMessage 0x41000000#32 1#6 8#64)) (fun t => (statusWord t, t.buf[0])) =
      some (0x00000132#32, 0x00#8) := by decide

set_option maxRecDepth 100000 in
/-- V-CMD-10 (V-CMP-11). -/
theorem test_compress_of_the_zero_block :
    seen (exec .compress State.reset) (fun t => (t.h, statusWord t, t.len)) =
      some (#v[0xDB04D220#32, 0xF639AB8E#32, 0x8E6B506D#32, 0xC54481DA#32, 0x63A5820F#32, 0x1294A139#32, 0x8EDCEF0E#32,
        0x17A572BC#32], 0x00000000#32, 0#64) := by decide

/-- V-ERR-5. -/
theorem test_compress_in_a_partial_block :
    seen (exec .compress (withMessage 0x41000000#32 1#6 8#64)) (fun t => (statusWord t, t.h)) =
      some (0x00000132#32, IV) := by decide

/-- V-ERR-7, V-ERR-8 and V-ERR-11: the length limit and the order of the checks. -/
theorem test_absorb_at_the_length_limit :
    seen (exec (.absorb 2) (withMessage 0#32 0#6 0xFFFFFFFFFFFFFFF0#64)) (fun t => (statusWord t, t.len)) =
        some (0x00000042#32, 0xFFFFFFFFFFFFFFF0#64) ∧
      seen (exec (.absorb 1) (withMessage 0#32 0#6 0xFFFFFFFFFFFFFFF0#64)) (fun t => (statusWord t, t.len)) =
        some (0x00000100#32, 0xFFFFFFFFFFFFFFF8#64) ∧
      seen (exec (.absorb 4) { withMessage 0#32 0#6 0xFFFFFFFFFFFFFFF8#64 with done := true }) statusWord =
        some 0x00000023#32 := by decide

/-! ### The datapath -/

/-- V-MIX-6. -/
theorem test_sigmas :
    bigSigma0 0x61626380#32 = 0x8DD59276#32 ∧ bigSigma1 0x61626380#32 = 0xC0B865F2#32 ∧
      smallSigma0 0x61626380#32 = 0x940E90EF#32 ∧ smallSigma1 0x61626380#32 = 0x7DA86405#32 := by decide

/-- V-MIX-10, V-ARITH-12. -/
theorem test_ch_maj_rotr :
    ch 0x0000FFFF#32 0x00FF00FF#32 0x0F0F0F0F#32 = 0x0F0F00FF#32 ∧
      maj 0x0000FFFF#32 0x00FF00FF#32 0x0F0F0F0F#32 = 0x000F0FFF#32 ∧ rotr 0x12345678#32 7 = 0xF02468AC#32 := by decide

/-- V-K-1. -/
theorem test_round_constants :
    K[0] = 0x428A2F98#32 ∧ K[1] = 0x71374491#32 ∧ K[45] = 0xD6990624#32 ∧ K[63] = 0xC67178F2#32 := by decide

/-- V-CMP-4: round 0 of the "abc" block, from T = IV. -/
theorem test_round_zero :
    mixRound IV K[0] 0x61626380#32 = #v[0x0E96B2DA#32, 0xC1059ED8#32, 0x367CD507#32, 0x3070DD17#32, 0x0434225E#32,
      0xFFC00B31#32, 0x68581511#32, 0x64F98FA7#32] := by decide

/-! ### The pure functions -/

/-- What a pure function answers. -/
def answer {α : Type} (o : Host.Outcome α Fault Refusal) : Except (Option Fault) α :=
  match o with
  | .next a => .ok a
  | .fault r => .error (some r)
  | .refused _ => .error none

set_option maxRecDepth 10000 in
/-- V-PAD-10. -/
theorem test_pad_abc :
    padded [0x61#8, 0x62#8, 0x63#8] =
      [0x61#8, 0x62#8, 0x63#8, 0x80#8] ++ List.replicate 52 0#8 ++ [0#8, 0#8, 0#8, 0#8, 0#8, 0#8, 0#8, 0x18#8] := by decide

set_option maxRecDepth 10000 in
/-- V-PAD-4, V-PAD-5, V-PAD-9. -/
theorem test_pad_lengths :
    (padded (List.replicate 55 0x61#8)).length = 64 ∧ (padded (List.replicate 56 0x61#8)).length = 128 ∧
      (padded (List.replicate 120 0x61#8)).length = 192 := by decide

/-- V-WORD-1, V-WORD-2. -/
theorem test_to_words :
    toWords [0x61#8, 0x62#8, 0x63#8, 0x80#8, 0#8, 0#8, 0#8, 0x18#8] = .next [0x61626380#32, 0x00000018#32] ∧
      toWords [0x61#8, 0x62#8, 0x63#8] = .fault .invalidLength := ⟨rfl, rfl⟩

/-- V-WORD-3. -/
theorem test_to_bytes :
    toBytes [0xC1059ED8#32, 0x00000001#32] = [0xC1#8, 0x05#8, 0x9E#8, 0xD8#8, 0#8, 0#8, 0#8, 1#8] := by decide

set_option maxRecDepth 100000 in
/-- V-CMP-12. -/
theorem test_compress_block_of_zeros :
    compressBlock (Vector.replicate 8 0#32) (Vector.replicate 16 0#32) =
      #v[0x7CA51614#32, 0x425C3BA8#32, 0xCE54DD2F#32, 0xC2020AE7#32, 0xB6E574D1#32, 0x98136D0F#32, 0xAE7E26CC#32,
        0xBF0BE7A6#32] := by decide

/-! ### The host's side -/

/-- V-REG-1: an ignored write, a read of a reserved offset, and `rd H7`. -/
theorem test_register_accesses :
    seen (step (State.reset.setPending [writeEvent 0x08 0xFFFFFFFF#32])) statusWord = some 0#32 ∧
      seen (step (State.reset.setPending [readEvent 0x14])) (fun t => t.results) = some [0#32] ∧
      seen (step (State.reset.setPending [readEvent 0x3C])) (fun t => t.results) = some [0xBEFA4FA4#32] := by decide

/-- V-ERR-1, V-ERR-14: an illegal word, and an INIT-like one after an error. -/
theorem test_illegal_words :
    seen (step (State.reset.setPending [commandEvent 0x00000400#32])) statusWord = some 0x00000012#32 ∧
      seen (step (withError.setPending [commandEvent 0x00000011#32])) statusWord = some 0x00000012#32 := by decide

/-- R58: a line of text, its comment dropped, and the access it stands for. -/
theorem test_assembler_line :
    parseLine "AbsorbW 0x61626300, 3 ; abc".toList = some [.absorbw 0x61626300#32 3] ∧
      (Line.absorbw 0x61626300#32 3).events = [writeEvent 0x04 0x61626300#32, commandEvent 0x00000202#32] := by decide

/-- R133: the micro-steps of the commands. -/
theorem test_micro_step_counts :
    microStepCount .compress State.reset = 114 ∧ microStepCount .finish (withMessage 0#32 56#6 448#64) = 228 ∧
      microStepCount .finish (withMessage 0#32 55#6 440#64) = 114 ∧
      microStepCount (.absorb 4) (withMessage 0#32 60#6 480#64) = 114 ∧
      microStepCount (.absorb 3) (withMessage 0#32 60#6 480#64) = 0 := by decide

/-! ### Witnesses: for each obligation with hypotheses, a state and operands that meet all of them -/

theorem witness_DecodeOfEncodeIsTheCommand :
    (Instr.absorb 4).wellFormed = true ∧ (Instr.loadh 7).wellFormed = true ∧ (Instr.loadm 15).wellFormed = true :=
  by decide

theorem witness_LegalWordIsItsCommandsEncoding :
    decode 0x000000F5#32 = .command (.loadm 15) ∧ decode 0x00000302#32 = .command (.absorb 4) := by decide

/-- The last clause has both as its hypotheses. -/
theorem witness_WordIsACommandExactlyWhenItsRowMatches :
    (Instr.absorb 4).row.selects 0x00000302#32 = true ∧ (Instr.absorb 1).row.selects 0x00000302#32 = true := by decide

/-- A legal word and an illegal one, for the two clauses. -/
theorem witness_StepRunsTheWrittenCommand :
    State.Ready (State.reset.setPending [commandEvent 0x00000074#32]) ∧
      (State.reset.setPending [commandEvent 0x00000074#32]).pending = commandEvent 0x00000074#32 :: [] ∧
      decode 0x00000074#32 = .command (.loadh 7) ∧
      State.Ready (withError.setPending [commandEvent 0x00000084#32]) ∧
      (withError.setPending [commandEvent 0x00000084#32]).pending = commandEvent 0x00000084#32 :: [] ∧
      decode 0x00000084#32 = .illegal .index := by decide

/-- The ends of the window, for the two clauses. -/
theorem witness_StepPerformsTheHostAccess :
    State.Ready (State.reset.setPending [readEvent 0x3C]) ∧
      (State.reset.setPending [readEvent 0x3C]).pending = readEvent 0x3C :: [] ∧ slotAt 0x3C = some (.hash 7) ∧
      State.Ready (State.reset.setPending [writeEvent 0x00 7#32]) ∧
      (State.reset.setPending [writeEvent 0x00 7#32]).pending = writeEvent 0x00 7#32 :: [] ∧
      slotAt 0x00 = some .cmd := by decide

/-- 0x00000011 is "not INIT" (R113); the conclusion has both values of ERR. -/
theorem witness_IllegalWordRecordsIllegalCommand :
    ∀ i : Instr, i.row.selects 0x00000011#32 = false := by
  intro i
  cases i <;> simp only [Instr.row] <;> decide

/-- For the third clause. -/
theorem witness_IllegalWordsAreThoseOfTheList :
    decode 0x00000011#32 = .illegal .index := by decide

/-- The ends of the list, at the reset state. -/
theorem witness_HostReadReturnsTheRegister :
    ∀ p ∈ [(0x00, 0#32), (0x3C, 0xBEFA4FA4#32)], p ∈ [(0x00, 0#32), (0x04, State.reset.din),
      (0x08, BitVec.ofNat 32 (State.reset.done.toNat + 2 * State.reset.err.toNat + 16 * State.reset.ecode.toNat +
        256 * State.reset.bcnt.toNat)),
      (0x0C, State.reset.len.extractLsb' 0 32), (0x10, State.reset.len.extractLsb' 32 32), (0x14, 0#32), (0x18, 0#32),
      (0x1C, 0#32), (0x20, State.reset.h[0]), (0x24, State.reset.h[1]), (0x28, State.reset.h[2]), (0x2C, State.reset.h[3]),
      (0x30, State.reset.h[4]), (0x34, State.reset.h[5]), (0x38, State.reset.h[6]), (0x3C, State.reset.h[7])] := by decide

theorem witness_HostWriteDispatchesStoresOrIsIgnored :
    slotAt 0x00 = some .cmd ∧ slotAt 0x04 = some .din ∧ slotAt 0x3C = some (.hash 7) := by decide

theorem witness_AccessRefusedExactlyOutsideTheInterface :
    (State.reset.setPending [.access ⟨.read, 8, 64⟩]).seq.phase = .idle ∧
      (State.reset.setPending [.access ⟨.read, 8, 64⟩]).pending = .access ⟨.read, 8, 64⟩ :: [] := by decide

theorem witness_WindowDecodesBasePlusOffset :
    60 < 64 ∧ 60 % 4 = 0 ∧
      (Config.shaBase + 64 < Config.shaBase ∨ Config.shaBase + 64 ≤ Config.shaBase + 64) :=
  ⟨by decide, by decide, .inr (Nat.le_refl _)⟩

theorem witness_StepPerformsExactlyTheOldestEvent :
    ∃ t, (State.reset.setPending [readEvent 0x04]).seq.phase = .idle ∧
      (State.reset.setPending [readEvent 0x04]).pending = readEvent 0x04 :: [] ∧
      step (State.reset.setPending [readEvent 0x04]) = .next t := ⟨_, rfl, rfl, rfl⟩

/-- One state for each clause. -/
theorem witness_RaisingChangesOnlyTheErrorRecord :
    State.reset.err = false ∧ withError.err = true ∧
      ({ State.reset with done := true } : State).err = false ∧
      ∃ t, exec .finish { State.reset with done := true } = .next t ∧ t.err = true := ⟨rfl, rfl, rfl, _, rfl, rfl⟩

theorem witness_AbsorbAndFinishAfterDoneRaiseSequence :
    1 ≤ 4 ∧ 4 ≤ 4 ∧ ({ State.reset with done := true } : State).err = false ∧
      ({ State.reset with done := true } : State).done = true := by decide

theorem witness_RawCommandsInAPartialBlockRaisePartialBlock :
    15 < 16 ∧ (withMessage 0#32 63#6 504#64).err = false ∧ (withMessage 0#32 63#6 504#64).bcnt ≠ 0#6 := by decide

theorem witness_AbsorbPastTheLengthLimitRaisesOverflow :
    1 ≤ 1 ∧ 1 ≤ 4 ∧ (withMessage 0#32 0#6 0xFFFFFFFFFFFFFFF8#64).err = false ∧
      (withMessage 0#32 0#6 0xFFFFFFFFFFFFFFF8#64).done = false ∧
      (withMessage 0#32 0#6 0xFFFFFFFFFFFFFFF8#64).len.toNat + 8 * 1 > 2 ^ 64 - 1 := by decide

theorem witness_ErrorGateIgnoresEveryCommandButInit :
    withError.err = true ∧ (Instr.loadh 7).wellFormed = true ∧ Instr.loadh 7 ≠ .init := by decide

/-- A legal command and an illegal word. -/
theorem witness_RecordedErrorHoldsUntilInit :
    State.Ready (withError.setPending ([0x00000003#32, 0x00000011#32].map commandEvent)) ∧
      (withError.setPending ([0x00000003#32, 0x00000011#32].map commandEvent)).err = true ∧
      (∀ c ∈ [0x00000003#32, 0x00000011#32], c ≠ 0x00000001#32) ∧
      (withError.setPending ([0x00000003#32, 0x00000011#32].map commandEvent)).pending =
        [0x00000003#32, 0x00000011#32].map commandEvent :=
  ⟨⟨rfl, rfl⟩, rfl, by simp, rfl⟩

theorem witness_LoadhWritesOneHashWord :
    7 < 8 ∧ State.reset.err = false := by decide

theorem witness_LoadmWritesFourBlockBytes :
    15 < 16 ∧ State.reset.err = false ∧ State.reset.bcnt = 0#6 ∧ (withMessage 0#32 1#6 8#64).bcnt ≠ 0#6 := by decide

theorem witness_LoadedWordIsParsedBack :
    15 < 16 ∧ State.reset.err = false ∧ State.reset.bcnt = 0#6 ∧ ∃ t, exec (.loadm 15) State.reset = .next t :=
  ⟨by decide, rfl, rfl, _, rfl⟩

theorem witness_CompressFoldsTheBlock :
    State.reset.err = false ∧ State.reset.bcnt = 0#6 ∧ (withMessage 0#32 1#6 8#64).bcnt ≠ 0#6 := by decide

theorem witness_AbsorbInsideABlockStoresTheBytes :
    1 ≤ 4 ∧ 4 ≤ 4 ∧ (withMessage 0x61626364#32 59#6 472#64).err = false ∧
      (withMessage 0x61626364#32 59#6 472#64).done = false ∧
      (withMessage 0x61626364#32 59#6 472#64).len.toNat + 8 * 4 ≤ 2 ^ 64 - 1 ∧
      (withMessage 0x61626364#32 59#6 472#64).bcnt.toNat + 4 < 64 := by decide

theorem witness_AbsorbAcrossABlockCompressesOnce :
    1 ≤ 4 ∧ 4 ≤ 4 ∧ (withMessage 0x61626364#32 60#6 480#64).err = false ∧
      (withMessage 0x61626364#32 60#6 480#64).done = false ∧
      (withMessage 0x61626364#32 60#6 480#64).len.toNat + 8 * 4 ≤ 2 ^ 64 - 1 ∧
      64 ≤ (withMessage 0x61626364#32 60#6 480#64).bcnt.toNat + 4 := by decide

/-- The two sides of the threshold of R66, and DONE set. -/
theorem witness_FinishPadsAndCompresses :
    (withMessage 0#32 55#6 440#64).err = false ∧ (withMessage 0#32 55#6 440#64).done = false ∧
      (withMessage 0#32 55#6 440#64).bcnt.toNat ≤ 55 ∧ (withMessage 0#32 56#6 448#64).err = false ∧
      (withMessage 0#32 56#6 448#64).done = false ∧ ¬ (withMessage 0#32 56#6 448#64).bcnt.toNat ≤ 55 ∧
      ({ State.reset with done := true } : State).done = true := by decide

theorem witness_NoCommandChangesDIN :
    ∃ t, exec (.loadm 15) State.reset = .next t := ⟨_, rfl⟩

theorem witness_OnlyFinishSetsAndOnlyInitClearsDone :
    (∃ t, exec .finish State.reset = .next t ∧ State.reset.done = false) ∧
      ∃ t, exec .init { State.reset with done := true } = .next t ∧
        ({ State.reset with done := true } : State).done = true ∧ t.done = false :=
  ⟨⟨_, rfl, rfl⟩, _, rfl, rfl, rfl⟩

set_option maxRecDepth 100000 in
/-- The first clause's conclusion is reached too: FINISH sets DONE. -/
theorem witness_OnlyFinishSetsDone : seen (exec .finish State.reset) (fun t => t.done) = some true := by decide

theorem witness_OnlyAbsorbAddsToLENAndItNeverWraps :
    ∃ t, exec (.absorb 4) State.reset = .next t := ⟨_, rfl⟩

theorem witness_ShiftAndRotationMoveEachBit :
    1 ≤ 1 ∧ 1 < 32 ∧ 1 ≤ 31 ∧ 31 < 32 := by decide

theorem witness_MixingFunctionsBitByBit :
    0 < 32 ∧ 31 < 32 := by decide

theorem witness_RoundConstantsAreCubeRootsOfPrimes :
    2 < 312 ∧ 311 < 312 ∧ 0 < 64 ∧ 63 < 64 := by decide

theorem witness_LanesAreBigEndian :
    0 < 4 ∧ 3 < 4 := by decide

theorem witness_LoadCopiesBlockAndHash :
    (startCompression State.reset).seq.phase = .load ∧ 15 < 16 ∧ 16 < 64 ∧ 16 ≤ 16 := by decide

theorem witness_ExpandComputesOneScheduleWord :
    ({ State.reset with seq := ⟨.expand, 16⟩ } : State).seq = ⟨.expand, ⟨16, by decide⟩⟩ ∧ 16 ≤ 16 ∧ 16 + 1 < 64 ∧
      ({ State.reset with seq := ⟨.expand, 63⟩ } : State).seq = ⟨.expand, ⟨63, by decide⟩⟩ ∧ ¬ 63 + 1 < 64 := by decide

theorem witness_RoundShiftsTheWorkingRegisters :
    ({ State.reset with seq := ⟨.round, 0⟩ } : State).seq = ⟨.round, ⟨0, by decide⟩⟩ ∧ 0 + 1 < 64 ∧
      ({ State.reset with seq := ⟨.round, 63⟩ } : State).seq = ⟨.round, ⟨63, by decide⟩⟩ ∧ ¬ 63 + 1 < 64 := by decide

theorem witness_FoldAccumulatesIntoHash :
    ({ State.reset with seq := ⟨.fold, 63⟩ } : State).seq.phase = .fold ∧ 7 < 8 := by decide

/-- The longest message and the first that is too long, for the two clauses. -/
theorem witness_PaddedMessageLayout :
    ([] : List Byte).length ≤ 2 ^ 61 - 1 ∧ [0x61#8, 0x62#8, 0x63#8].length ≤ 2 ^ 61 - 1 ∧
      (∃ m : List Byte, m.length = 2 ^ 61 - 1) ∧ ∃ m : List Byte, 2 ^ 61 - 1 < m.length ∧ m.length = 2 ^ 61 := by
  refine ⟨by decide, by decide, ⟨List.replicate (2 ^ 61 - 1) 0#8, List.length_replicate ..⟩,
    List.replicate (2 ^ 61) 0#8, ?_, List.length_replicate ..⟩
  rw [List.length_replicate]
  decide

theorem witness_PaddedLengthIsTheSmallestMultiple :
    pad [0x61#8, 0x62#8, 0x63#8] = .next (padded [0x61#8, 0x62#8, 0x63#8]) := rfl

theorem witness_ToWordsGroupsBytesOrFaults :
    [0x61#8, 0x62#8, 0x63#8].length % 4 ≠ 0 ∧ [0x61#8, 0x62#8, 0x63#8, 0x80#8].length % 4 = 0 := by decide

theorem witness_ParseAndSerialiseAreInverse :
    [0x61#8, 0x62#8, 0x63#8, 0x80#8].length % 4 = 0 := by decide

theorem witness_CompressTakesBlocksInOrder :
    (Vector.replicate 16 0#32).toList.length % 16 = 0 ∧ [0#32].length % 16 ≠ 0 := by decide

theorem witness_HashIsTwentyEightBytesOfTheFinalState :
    [0x61#8, 0x62#8, 0x63#8].length ≤ 2 ^ 61 - 1 := by decide

theorem witness_DigestBytesAreTheHashWordsBytes :
    6 < 7 ∧ 3 < 4 := by decide

/-- A cut of `"abcabc"` into chunks of 4, 1 and 1 bytes, with other bytes in the lanes not taken. -/
def chunks : List Chunk := [⟨0x61626361#32, 4⟩, ⟨0x62FFFFFF#32, 1⟩, ⟨0x63000000#32, 1⟩]

theorem test_chunk_bytes : chunks.flatMap Chunk.bytes = [0x61#8, 0x62#8, 0x63#8, 0x61#8, 0x62#8, 0x63#8] := by decide

theorem witness_AbsorbedPrefixIsTheChainingValue :
    ({ State.reset.setPending (chunks.flatMap Chunk.events) with t := Vector.replicate 8 5#32 } : State).withoutScratch =
        (State.reset.setPending (chunks.flatMap Chunk.events)).withoutScratch ∧
      (∀ c ∈ chunks, c.ok) ∧ (chunks.flatMap Chunk.bytes).length ≤ 2 ^ 61 - 1 := ⟨rfl, by decide, by decide⟩

theorem witness_StreamingCommandsComputeTheHash :
    (∀ c ∈ chunks, c.ok) ∧ (chunks.flatMap Chunk.bytes).length ≤ 2 ^ 61 - 1 ∧
      (State.reset.setPending (streamEvents chunks)).Ready ∧
      (State.reset.setPending (streamEvents chunks)).withoutScratch =
        (State.reset.setPending (streamEvents chunks)).withoutScratch := ⟨by decide, by decide, ⟨rfl, rfl⟩, rfl⟩

theorem witness_RawCommandsComputeCompress :
    (State.reset.setPending (rawEvents IV [Vector.replicate 16 7#32])).Ready ∧
      (State.reset.setPending (rawEvents IV [Vector.replicate 16 7#32])).err = false ∧
      (State.reset.setPending (rawEvents IV [Vector.replicate 16 7#32])).bcnt = 0#6 ∧
      (State.reset.setPending (rawEvents IV [Vector.replicate 16 7#32])).pending =
        rawEvents IV [Vector.replicate 16 7#32] := ⟨⟨rfl, rfl⟩, rfl, rfl, rfl⟩

theorem witness_StepKeepsTheInvariant :
    ∃ t, (State.setPending (withMessage 0x61626300#32 61#6 488#64) [commandEvent 0x00000102#32]).Inv ∧
      step (State.setPending (withMessage 0x61626300#32 61#6 488#64) [commandEvent 0x00000102#32]) = .next t :=
  ⟨_, by decide, rfl⟩

theorem witness_ResetEventRestoresEveryRegister :
    (({ State.reset with seq := ⟨.round, 63⟩ } : State).setPending [.resetAssert]).pending = .resetAssert :: [] := by decide

theorem witness_CutCommandLeavesNoEffect :
    (State.reset.setPending [.commandCut 0x00000006#32 57]).Ready ∧
      (State.reset.setPending [.commandCut 0x00000006#32 57]).pending = .commandCut 0x00000006#32 57 :: [] := by decide

theorem witness_MicroStepsRefineTheCommand :
    ∃ t, exec .compress State.reset = .next t ∧ 113 < microStepCount .compress State.reset := ⟨_, rfl, by decide⟩

theorem witness_HiddenScratchIsNeverSeen :
    State.reset.seq.phase = .idle ∧ State.reset.withoutScratch =
      ({ State.reset with t := Vector.replicate 8 5#32, seq := ⟨.idle, 63⟩, freeCount := 9 } : State).withoutScratch := by decide

end Sys2Proof.Tests
end

section
/-! SUPPORT. The inversion of `exec` and of `perform`: everything a command and a host event can do. -/

namespace Sys2Proof.Machine

/-- Everything a command that answers can have done to `s` (spec/60_exceptions.md R118, R119): each constructor is one
outcome, with what the command's own checks have established of its operands and of `s`. -/
inductive CommandEffect (s : State) : Instr → State → Prop
  | raised (i : Instr) (code : ErrorCode) : CommandEffect s i (raiseError code s)
  | gated (i : Instr) (herr : s.err = true) : CommandEffect s i s
  | nop : CommandEffect s .nop s
  | init : CommandEffect s .init (startMessage s)
  | absorb (nb : Nat) (hnb : 1 ≤ nb ∧ nb ≤ 4) (hdone : s.done = false) (hlen : s.len.toNat + 8 * nb < 2 ^ 64) :
      CommandEffect s (.absorb nb) (absorbBytes nb 0 s)
  | finish (hdone : s.done = false) : CommandEffect s .finish (closeMessage (padtail s))
  | loadh (i : Nat) (hi : i < 8) : CommandEffect s (.loadh i) (setHashWord i s.din s)
  | loadm (j : Nat) (hj : j < 16) (hbcnt : s.bcnt = 0#6) : CommandEffect s (.loadm j) (setBlockWord j s.din s)
  | compress (hbcnt : s.bcnt = 0#6) : CommandEffect s .compress (compression s)

/-- A command has the effect it has when its checks pass, or one of the three that `command_cases` lists besides. -/
theorem commandEffect_command {i : Instr} {legal : Bool} {error : State → Option ErrorCode} {run : State → State}
    {s : State} (hrun : legal = true → error s = none → CommandEffect s i (run s)) :
    CommandEffect s i (command legal error run s) := by
  obtain ⟨_, h⟩ | ⟨_, he, h⟩ | ⟨_, _, code, _, h⟩ | ⟨hl, _, hn, h⟩ := command_cases legal error run s <;> rw [h]
  · exact .raised i .illegalCommand
  · exact .gated i he
  · exact .raised i code
  · exact hrun hl hn

/-- What ABSORB's own checks let through (R114, R116). -/
theorem absorbError_eq_none {nb : Nat} {s : State} (h : absorbError nb s = none) :
    s.done = false ∧ s.len.toNat + 8 * nb < 2 ^ 64 := by
  unfold absorbError at h
  split at h
  · cases h
  · next hd =>
    split at h
    · cases h
    · exact ⟨by simpa using hd, by omega⟩

/-- What FINISH's own check lets through (R114). -/
theorem finishError_eq_none {s : State} (h : finishError s = none) : s.done = false := by
  simpa [finishError] using h

/-- What the own check of LOADM and COMPRESS lets through (R115). -/
theorem rawError_eq_none {s : State} (h : rawError s = none) : s.bcnt = 0#6 := by
  simpa [rawError] using h

/-- The inversion of `exec`. -/
theorem exec_effect {i : Instr} {s t : State} (h : exec i s = .next t) : CommandEffect s i t := by
  cases i with
  | nop => cases h; exact commandEffect_command fun _ _ => .nop
  | init => cases h; exact .init
  | absorb nb =>
    cases h
    refine commandEffect_command fun hl hn => ?_
    obtain ⟨hdone, hlen⟩ := absorbError_eq_none hn
    exact .absorb nb (of_decide_eq_true hl) hdone hlen
  | finish => cases h; exact commandEffect_command fun _ hn => .finish (finishError_eq_none hn)
  | loadh i => cases h; exact commandEffect_command fun hl _ => .loadh i (of_decide_eq_true hl)
  | loadm j => cases h; exact commandEffect_command fun hl hn => .loadm j (of_decide_eq_true hl) (rawError_eq_none hn)
  | compress => cases h; exact commandEffect_command fun _ hn => .compress (rawError_eq_none hn)

/-- Everything a host event that is performed can do. -/
inductive EventEffect (s : State) : State → Prop
  | read (r : Slot) : EventEffect s (noteResult (regRead r s) s)
  | command (c : Word) (t : State) (h : dispatchWord c s = .next t) : EventEffect s t
  | din (v : Word) : EventEffect s { s with din := v }
  | ignored : EventEffect s s
  | reset (u : State) : EventEffect s (assertReset u)
  | release : EventEffect s { s with resetLine := false }

/-- A host write is a command, a store to DIN, or ignored (R44, R100). -/
theorem regWrite_effect {r : Slot} {v : Word} {s t : State} (h : regWrite r v s = .next t) : EventEffect s t := by
  cases r with
  | cmd => exact .command v t h
  | din => cases h; exact .din v
  | _ => cases h; exact .ignored

/-- A host access that is not refused is a read or a write of a register. -/
theorem performAccess_effect {a : Access} {s t : State} (h : performAccess a s = .next t) : EventEffect s t := by
  unfold performAccess at h
  split at h
  · cases h
  · split at h
    · cases h
    · next r _ =>
      unfold regAccess at h
      split at h
      · cases h; exact .read r
      · exact regWrite_effect h

/-- The inversion of `perform`. -/
theorem perform_effect {e : HostEvent} {s t : State} (h : perform e s = .next t) : EventEffect s t := by
  cases e with
  | access a => exact performAccess_effect h
  | commandCut v n =>
    simp only [perform] at h
    split at h
    · cases h
    · cases h; exact .reset (cutState v n s)
  | resetAssert => cases h; exact .reset s
  | resetRelease => cases h; exact .release

end Sys2Proof.Machine
end

section
/-! PROOFS. Who writes DIN, DONE and LEN (spec/10_state.md R25 to R27). -/

namespace Sys2Proof.Machine

/-- Settles O30 (R26): no outcome of a command writes DIN, the waiting events, the read results or the reset line. -/
theorem noCommandChangesDIN : Obligations.NoCommandChangesDIN := by
  intro i s t h
  cases exec_effect h <;> simp

/-- DONE moves only with FINISH, which sets it, and with INIT, which clears it (R27). -/
theorem done_of_effect {i : Instr} {s t : State} (h : CommandEffect s i t) :
    t.done = s.done ∨ (i = .finish ∧ t.done = true) ∨ (i = .init ∧ t.done = false) := by
  cases h <;> simp

/-- Settles O31 (R27): by the three ways `done_of_effect` allows. -/
theorem onlyFinishSetsAndOnlyInitClearsDone : Obligations.OnlyFinishSetsAndOnlyInitClearsDone := by
  intro i s t h
  obtain hd | ⟨hi, hd⟩ | ⟨hi, hd⟩ := done_of_effect (exec_effect h)
  · rw [hd]
    exact ⟨fun hf ht => absurd hf (by simp [ht]), fun ht hf => absurd hf (by simp [ht])⟩
  · exact ⟨fun _ _ => hi, fun _ hf => absurd hd (by simp [hf])⟩
  · exact ⟨fun _ ht => absurd hd (by simp [ht]), fun _ _ => hi⟩

/-- LEN after ABSORB's loop: LENGTH_OVERFLOW has been excluded, so the sum does not wrap (R105, R116). -/
theorem absorbBytes_len {n : Nat} (k : Nat) {s : State} (h : s.len.toNat + 8 * n < 2 ^ 64) :
    (absorbBytes n k s).len.toNat = s.len.toNat + 8 * n := by
  rw [(absorbBytes_counts n k s).2, BitVec.toNat_add, BitVec.toNat_ofNat]
  omega

/-- BCNT after ABSORB's loop (R24, R105). -/
theorem absorbBytes_bcnt (n k : Nat) (s : State) :
    (absorbBytes n k s).bcnt.toNat = (s.bcnt.toNat + n) % 64 := by
  rw [(absorbBytes_counts n k s).1, BitVec.toNat_add, BitVec.toNat_ofNat]
  omega

/-- Settles O32 (R25): INIT clears LEN, ABSORB adds 8 NB without a wrap, and every other outcome leaves it. -/
theorem onlyAbsorbAddsToLENAndItNeverWraps : Obligations.OnlyAbsorbAddsToLENAndItNeverWraps := by
  intro i s t h
  cases exec_effect h with
  | init => exact .inl (by simp)
  | absorb nb hnb _ hlen => exact .inr (.inr ⟨nb, rfl, hnb.1, hnb.2, absorbBytes_len 0 hlen⟩)
  | _ => exact .inr (.inl (by simp))

end Sys2Proof.Machine
end

section
/-! PROOFS. The invariant of the state between two steps (spec/10_state.md R24, R25, R28, R29). -/

namespace Sys2Proof.Machine

/-- Settles O53 (R35). -/
theorem resetLeavesTheStatedValues : Obligations.ResetLeavesTheStatedValues := by
  refine ⟨rfl, fun j hj => ?_, rfl, rfl, rfl, rfl, rfl, rfl, rfl⟩
  simp [State.reset]

/-- Settles O54. -/
theorem resetMeetsTheInvariant : Obligations.ResetMeetsTheInvariant := by
  unfold Obligations.ResetMeetsTheInvariant
  decide

/-- The codes that can be recorded are 1 to 4 (R111). -/
theorem ErrorCode.bits_range (c : ErrorCode) : 1 ≤ c.bits.toNat ∧ c.bits.toNat ≤ 4 := by
  cases c <;> decide

/-- The invariant is about six fields alone. -/
theorem inv_of_fields_eq {s t : State} (hs : s.Inv)
    (h : t.seq.phase = s.seq.phase ∧ t.err = s.err ∧ t.ecode = s.ecode ∧ t.len = s.len ∧ t.bcnt = s.bcnt ∧
      t.done = s.done) : t.Inv := by
  obtain ⟨hphase, herr, hecode, hlen, hbcnt, hdone⟩ := h
  simpa only [State.Inv, State.SeqIdle, State.ErrorCodeLegal, State.CountsAgree, hphase, herr, hecode, hlen, hbcnt,
    hdone] using hs

/-- A new message meets the invariant as soon as the sequencer is idle (R104, R129). -/
theorem inv_of_cleared {s : State} (hseq : s.seq.phase = .idle)
    (h : s.err = false ∧ s.ecode = 0#4 ∧ s.len = 0#64 ∧ s.bcnt = 0#6 ∧ s.done = false) : s.Inv := by
  obtain ⟨herr, hecode, hlen, hbcnt, hdone⟩ := h
  simp [State.Inv, State.SeqIdle, State.ErrorCodeLegal, State.CountsAgree, hseq, herr, hecode, hlen, hbcnt, hdone]

/-- A first error records a code of R111's table, and a later one keeps the code there (R112). -/
theorem raiseError_inv {s : State} (hs : s.Inv) (c : ErrorCode) : (raiseError c s).Inv := by
  obtain ⟨hseq, hcode, hcounts⟩ := hs
  refine ⟨by simpa [State.SeqIdle] using hseq, ⟨by simp, fun _ => ?_⟩, by simpa [State.CountsAgree] using hcounts⟩
  rw [raiseError_ecode]
  split
  · next herr => exact hcode.2 herr
  · exact c.bits_range

/-- ABSORB adds the same number of bytes to LEN and, modulo 64, to BCNT (R105). -/
theorem absorbBytes_inv {n : Nat} (k : Nat) {s : State} (hs : s.Inv) (hdone : s.done = false)
    (hlen : s.len.toNat + 8 * n < 2 ^ 64) : (absorbBytes n k s).Inv := by
  obtain ⟨hseq, hcode, hbytes, hopen, _⟩ := hs
  have hblock := hopen hdone
  refine ⟨absorbBytes_seq hseq, by simpa [State.ErrorCodeLegal] using hcode, ?_, fun _ => ?_, by simp [hdone]⟩
  · rw [absorbBytes_len k hlen]
    omega
  · rw [absorbBytes_len k hlen, absorbBytes_bcnt]
    omega

/-- FINISH leaves LEN alone and clears BCNT as it sets DONE (R106). -/
theorem finish_inv {s : State} (hs : s.Inv) : (closeMessage (padtail s)).Inv := by
  obtain ⟨_, hcode, hbytes, _⟩ := hs
  exact ⟨by simp [State.SeqIdle], by simpa [State.ErrorCodeLegal] using hcode, by simpa using hbytes, by simp, by simp⟩

/-- Every command keeps the invariant. -/
theorem exec_inv {i : Instr} {s t : State} (hs : s.Inv) (h : exec i s = .next t) : t.Inv := by
  cases exec_effect h with
  | raised _ code => exact raiseError_inv hs code
  | gated => exact hs
  | nop => exact hs
  | init => exact inv_of_cleared hs.1 (by simp)
  | absorb nb _ hdone hlen => exact absorbBytes_inv 0 hs hdone hlen
  | finish => exact finish_inv hs
  | loadh => exact inv_of_fields_eq hs (by simp)
  | loadm => exact inv_of_fields_eq hs (by simp)
  | compress => exact inv_of_fields_eq hs (by simpa using hs.1.symm)

/-- So does every word written to CMD (R102). -/
theorem dispatchWord_inv {c : Word} {s t : State} (hs : s.Inv) (h : dispatchWord c s = .next t) : t.Inv := by
  unfold dispatchWord at h
  split at h
  · cases h
    exact raiseError_inv hs .illegalCommand
  · exact exec_inv hs h

/-- Reset meets the invariant whatever it interrupts (R129). -/
theorem assertReset_inv (s : State) : (assertReset s).Inv :=
  inv_of_cleared (by simp) (by simp)

/-- Every host event keeps the invariant. -/
theorem perform_inv {e : HostEvent} {s t : State} (hs : s.Inv) (h : perform e s = .next t) : t.Inv := by
  cases perform_effect h with
  | read r => exact inv_of_fields_eq hs (by simp)
  | command c _ hc => exact dispatchWord_inv hs hc
  | din => exact hs
  | ignored => exact hs
  | reset u => exact assertReset_inv u
  | release => exact hs

/-- Settles O55: with nothing waiting the state stays, and otherwise the oldest event is performed on a state that still
meets the invariant. -/
theorem stepKeepsTheInvariant : Obligations.StepKeepsTheInvariant := by
  intro s t hs h
  cases hp : s.pending with
  | nil =>
    rw [step_nothing_waits hs.1 hp] at h
    cases h
    exact hs
  | cons e es =>
    rw [step_performs hs.1 hp] at h
    exact perform_inv (s := s.setPending es) hs h

end Sys2Proof.Machine
end

section
/-! PROOFS. The STATUS word (spec/10_state.md R32). -/

namespace Sys2Proof.Machine

/-- A field placed above every bit of `x` adds its own weight to it. -/
theorem toNat_or_shiftLeft_setWidth {x : Word} {m : Nat} (y : BitVec m) {k : Nat} (hx : x.toNat < 2 ^ k)
    (hk : m + k ≤ 32) : (x ||| (y.setWidth 32 <<< k)).toNat = x.toNat + 2 ^ k * y.toNat := by
  have hy : y.toNat * 2 ^ k < 2 ^ 32 :=
    calc y.toNat * 2 ^ k < 2 ^ m * 2 ^ k := by gcongr; exact y.isLt
      _ = 2 ^ (m + k) := (pow_add 2 m k).symm
      _ ≤ 2 ^ 32 := Nat.pow_le_pow_right (by omega) hk
  have hw : y.toNat < 2 ^ 32 := lt_of_le_of_lt (Nat.le_mul_of_pos_right _ (by positivity)) hy
  rw [BitVec.toNat_or, BitVec.toNat_shiftLeft, BitVec.toNat_setWidth, Nat.mod_eq_of_lt hw, Nat.shiftLeft_eq,
    Nat.mod_eq_of_lt hy, Nat.or_comm, ← Nat.shiftLeft_eq, ← Nat.shiftLeft_add_eq_or_of_lt hx, Nat.shiftLeft_eq,
    Nat.add_comm, Nat.mul_comm]

/-- STATUS as a number (R32). -/
theorem statusWord_toNat (s : State) :
    (statusWord s).toNat = s.done.toNat + 2 * s.err.toNat + 16 * s.ecode.toNat + 256 * s.bcnt.toNat := by
  have hd := s.done.toNat_le
  have he := s.err.toNat_le
  have hc := s.ecode.isLt
  have hdone : ((BitVec.ofBool s.done).setWidth 32).toNat = s.done.toNat := by
    rw [BitVec.toNat_setWidth, BitVec.toNat_ofBool]
    omega
  have herr := toNat_or_shiftLeft_setWidth (BitVec.ofBool s.err) (k := 1) (lt_of_eq_of_lt hdone (by omega)) (by omega)
  rw [hdone, BitVec.toNat_ofBool] at herr
  have hecode := toNat_or_shiftLeft_setWidth s.ecode (k := 4) (lt_of_eq_of_lt herr (by omega)) (by omega)
  rw [herr] at hecode
  have hbcnt := toNat_or_shiftLeft_setWidth s.bcnt (k := 8) (lt_of_eq_of_lt hecode (by omega)) (by omega)
  rw [hecode] at hbcnt
  exact hbcnt

/-- A bit read off the number. -/
theorem getLsbD_of_toNat {n : Nat} {x : BitVec n} {i : Nat} {b : Bool} (h : x.toNat / 2 ^ i % 2 = b.toNat) :
    x.getLsbD i = b := by
  rw [← BitVec.testBit_toNat, Nat.testBit_eq_decide_div_mod_eq, h]
  cases b <;> rfl

/-- A field read off the number. -/
theorem extractLsb'_of_toNat {n : Nat} {x : BitVec n} {start len : Nat} {y : BitVec len}
    (h : x.toNat / 2 ^ start % 2 ^ len = y.toNat) : x.extractLsb' start len = y := by
  apply BitVec.eq_of_toNat_eq
  rw [BitVec.extractLsb'_toNat, Nat.shiftRight_eq_div_pow, h]

/-- Settles O10 (R32): every field of STATUS is read off its value `statusWord_toNat`. -/
theorem statusWordHoldsTheFlags : Obligations.StatusWordHoldsTheFlags := by
  intro s
  have hv := statusWord_toNat s
  have hd := s.done.toNat_le
  have he := s.err.toNat_le
  have hc := s.ecode.isLt
  have hb := s.bcnt.isLt
  refine ⟨getLsbD_of_toNat ?_, getLsbD_of_toNat ?_, extractLsb'_of_toNat ?_, extractLsb'_of_toNat ?_,
    extractLsb'_of_toNat ?_, extractLsb'_of_toNat ?_, hv, fun _ => rfl⟩ <;>
    simp only [hv, BitVec.toNat_ofNat] <;> omega

end Sys2Proof.Machine
end

section
/-! SUPPORT. Two runs of the micro-sequencer that differ only in the scratch they start with
(spec/42_compression.md R93). -/

namespace Sys2Proof.Machine

/-- Two states look the same when they agree on every field but T, W and the free-value counter, and on SEQ up to a
counter that no rule reads. -/
theorem withoutScratch_eq_iff {s t : State} : s.withoutScratch = t.withoutScratch ↔
    s.h = t.h ∧ s.buf = t.buf ∧ s.bcnt = t.bcnt ∧ s.len = t.len ∧ s.din = t.din ∧ s.done = t.done ∧ s.err = t.err ∧
    s.ecode = t.ecode ∧ s.seq.withoutFreeCounter = t.seq.withoutFreeCounter ∧ s.pending = t.pending ∧
    s.results = t.results ∧ s.resetLine = t.resetLine := by
  simp [State.withoutScratch]

/-- Forgetting a free counter keeps the phase. -/
theorem withoutFreeCounter_phase (q : Seq) : q.withoutFreeCounter.phase = q.phase := by
  obtain ⟨p, _⟩ := q
  cases p <;> rfl

/-! ## A compression does not read the scratch it starts with -/

/-- How far the T and W of two runs agree at the position of `s`: not at all before LOAD has written them, then on T and
on the words of W written so far (R85 to R88). -/
def ScratchAgrees (s t : State) : Prop :=
  match s.seq.phase with
  | .idle => True
  | .load => True
  | .expand => s.t = t.t ∧ ∀ (i : Nat) (hi : i < 64), i < s.seq.t.val → s.w[i] = t.w[i]
  | .round => s.t = t.t ∧ s.w = t.w
  | .fold => s.t = t.t

/-- The relation that two runs of the sequencer keep. -/
def Lockstep (s t : State) : Prop := s.withoutScratch = t.withoutScratch ∧ ScratchAgrees s t

/-- LOAD, FOLD and IDLE are entered at a free counter, which is forgotten (log 7). -/
theorem enterPhase_withoutFreeCounter {p : Phase} (hp : p ≠ .expand ∧ p ≠ .round) (s : State) :
    (enterPhase p s).withoutFreeCounter = ⟨p, 0⟩ := by
  cases p <;> simp_all [enterPhase, Seq.withoutFreeCounter]

/-- LOAD brings T and W[0..15] into agreement: it writes them from H and BUF (R85). -/
theorem loadStep_lockstep {s t : State} (h : s.withoutScratch = t.withoutScratch) :
    Lockstep (loadStep s) (loadStep t) := by
  obtain ⟨hh, hbuf, hrest⟩ := withoutScratch_eq_iff.mp h
  refine ⟨withoutScratch_eq_iff.mpr ?_, hh, fun i hi hlt => ?_⟩
  · simp [loadStep, hh, hbuf, hrest]
  · have hi : i < 16 := hlt
    simp [loadStep, hi, hbuf]

/-- EXPAND t reads four words of W below t and writes W[t] (R86). -/
theorem expandStep_w_agree {s t : State} {k : Fin 64} (h16 : 16 ≤ k.val)
    (hW : ∀ (i : Nat) (hi : i < 64), i < k.val → s.w[i] = t.w[i]) (i : Nat) (hi : i < 64) (hik : i < k.val + 1) :
    (expandStep k s).w[i] = (expandStep k t).w[i] := by
  simp only [expandStep, h16, dite_true, Vector.getElem_set]
  split
  · simp only [hW (k.val - 2) (by omega) (by omega), hW (k.val - 7) (by omega) (by omega),
      hW (k.val - 15) (by omega) (by omega), hW (k.val - 16) (by omega) (by omega)]
  · exact hW i hi (by omega)

/-- EXPAND t extends the agreement of W by W[t], to all of W at t = 63 (R86). -/
theorem expandStep_lockstep {s t : State} {k : Fin 64} (h : s.withoutScratch = t.withoutScratch)
    (hs : s.seq = ⟨.expand, k⟩) (hT : s.t = t.t) (hW : ∀ (i : Nat) (hi : i < 64), i < k.val → s.w[i] = t.w[i]) :
    Lockstep (expandStep k s) (expandStep k t) := by
  obtain ⟨hh, hbuf, hbcnt, hlen, hdin, hdone, herr, hecode, hseq, hrest⟩ := withoutScratch_eq_iff.mp h
  by_cases h16 : 16 ≤ k.val
  · have hw := expandStep_w_agree h16 hW
    refine ⟨withoutScratch_eq_iff.mpr (by simp [expandStep, *]), ?_⟩
    by_cases hlast : k.val + 1 < 64
    · have hnext : (expandStep k s).seq = ⟨.expand, ⟨k.val + 1, hlast⟩⟩ := by simp [expandStep, h16, hlast]
      simp only [ScratchAgrees, hnext]
      exact ⟨by simp [expandStep, h16, hT], hw⟩
    · have hnext : (expandStep k s).seq = ⟨.round, 0⟩ := by simp [expandStep, h16, hlast]
      simp only [ScratchAgrees, hnext]
      exact ⟨by simp [expandStep, h16, hT], Vector.ext fun i hi => hw i hi (by omega)⟩
  · simp only [expandStep, h16, dite_false]
    refine ⟨h, ?_⟩
    simpa [ScratchAgrees, hs, hT] using hW

/-- ROUND t computes T from T, W and K (R87). -/
theorem roundStep_lockstep {s t : State} {k : Fin 64} (h : s.withoutScratch = t.withoutScratch)
    (hT : s.t = t.t) (hW : s.w = t.w) : Lockstep (roundStep k s) (roundStep k t) := by
  obtain ⟨hh, hbuf, hbcnt, hlen, hdin, hdone, herr, hecode, hseq, hrest⟩ := withoutScratch_eq_iff.mp h
  by_cases hlast : k.val + 1 < 64
  · refine ⟨withoutScratch_eq_iff.mpr (by simp [roundStep, *]), ?_⟩
    simp [ScratchAgrees, roundStep, hlast, hT, hW]
  · refine ⟨withoutScratch_eq_iff.mpr (by simp [roundStep, enterPhase_withoutFreeCounter, *]), ?_⟩
    simp [ScratchAgrees, roundStep, hlast, hT, hW]

/-- FOLD adds T to H (R88); what it leaves in T and W need not agree. -/
theorem foldStep_lockstep {s t : State} (h : s.withoutScratch = t.withoutScratch) (hT : s.t = t.t) :
    Lockstep (foldStep s) (foldStep t) := by
  obtain ⟨hh, hbuf, hbcnt, hlen, hdin, hdone, herr, hecode, hseq, hrest⟩ := withoutScratch_eq_iff.mp h
  refine ⟨withoutScratch_eq_iff.mpr ?_, trivial⟩
  simp [foldStep, enterPhase_withoutFreeCounter, *]

theorem phase_eq_of_withoutFreeCounter_eq {q r : Seq} (h : q.withoutFreeCounter = r.withoutFreeCounter) :
    q.phase = r.phase := by
  rw [← withoutFreeCounter_phase q, ← withoutFreeCounter_phase r, h]

/-- Where a rule reads the counter it is not forgotten (R86, R87). -/
theorem withoutFreeCounter_eq_self {q : Seq} (h : q.phase = .expand ∨ q.phase = .round) : q.withoutFreeCounter = q := by
  obtain h | h := h <;> simp [Seq.withoutFreeCounter, h]

theorem seq_eq_of_withoutFreeCounter_eq {q r : Seq} (h : q.withoutFreeCounter = r.withoutFreeCounter)
    (hq : q.phase = .expand ∨ q.phase = .round) : q = r := by
  have hr := hq
  rw [phase_eq_of_withoutFreeCounter_eq h] at hr
  rwa [withoutFreeCounter_eq_self hq, withoutFreeCounter_eq_self hr] at h

/-- Every micro-step keeps two runs in lockstep. -/
theorem microStep_lockstep {s t : State} (h : Lockstep s t) : Lockstep (microStep s) (microStep t) := by
  obtain ⟨hsame, hscratch⟩ := h
  have hq : s.seq.withoutFreeCounter = t.seq.withoutFreeCounter := congrArg State.seq hsame
  have hphase := phase_eq_of_withoutFreeCounter_eq hq
  cases hp : s.seq.phase with
  | idle => simpa [microStep, ← hphase, hp] using ⟨hsame, hscratch⟩
  | load => simpa [microStep, ← hphase, hp] using loadStep_lockstep hsame
  | expand =>
    simp only [ScratchAgrees, hp] at hscratch
    obtain ⟨hT, hW⟩ := hscratch
    have hseq := seq_eq_of_withoutFreeCounter_eq hq (.inl hp)
    have hs : s.seq = ⟨.expand, s.seq.t⟩ := by rw [← hp]
    simpa [microStep, ← hseq, hp] using expandStep_lockstep hsame hs hT hW
  | round =>
    simp only [ScratchAgrees, hp] at hscratch
    obtain ⟨hT, hW⟩ := hscratch
    have hseq := seq_eq_of_withoutFreeCounter_eq hq (.inr hp)
    simpa [microStep, ← hseq, hp] using roundStep_lockstep hsame hT hW
  | fold =>
    simp only [ScratchAgrees, hp] at hscratch
    simpa [microStep, ← hphase, hp] using foldStep_lockstep hsame hscratch

/-- So does every run of micro-steps. -/
theorem microSteps_lockstep (n : Nat) {s t : State} (h : Lockstep s t) :
    Lockstep (microSteps n s) (microSteps n t) := by
  induction n generalizing s t with
  | zero => exact h
  | succ n ih => exact ih (microStep_lockstep h)

end Sys2Proof.Machine
end

section
/-! PROOFS. No host event looks at T, W or the idle counter (spec/10_state.md R33). -/

namespace Sys2Proof.Machine

/-- `f` takes states that look the same to states that look the same. -/
def Blind (f : State → State) : Prop :=
  ∀ ⦃s t : State⦄, s.withoutScratch = t.withoutScratch → (f s).withoutScratch = (f t).withoutScratch

theorem Blind.comp {f g : State → State} (hg : Blind g) (hf : Blind f) : Blind fun s => g (f s) :=
  fun _ _ h => hg (hf h)

/-- An update that commutes with forgetting is blind. -/
theorem Blind.of_commutes {f : State → State} (hf : ∀ s, (f s).withoutScratch = f s.withoutScratch) : Blind f :=
  fun s t h => by rw [hf s, hf t, h]

/-- A choice by something that can be seen. -/
theorem Blind.ite {c : State → Prop} [DecidablePred c] {f g : State → State} (hc : ∀ s, c s.withoutScratch ↔ c s)
    (hf : Blind f) (hg : Blind g) : Blind fun s => if c s then f s else g s := by
  intro s t h
  have hst : c s ↔ c t := by rw [← hc s, ← hc t, h]
  by_cases hs : c s
  · simpa only [hs, hst.mp hs, if_true] using hf h
  · simpa only [hs, mt hst.mpr hs, if_false] using hg h

/-- R93: a compression begins with LOAD, so T, W and the counter it finds do not matter. -/
theorem compression_blind : Blind compression := by
  intro s t h
  have hstart : Lockstep (startCompression s) (startCompression t) := by
    refine ⟨withoutScratch_eq_iff.mpr ?_, trivial⟩
    have := withoutScratch_eq_iff.mp h
    simp [enterPhase_withoutFreeCounter, this]
  exact (microSteps_lockstep compressionSteps hstart).1

/-- One turn of ABSORB's loop (R105). -/
theorem absorbByte_blind (k : Nat) : Blind (absorbByte k) := by
  have hput : Blind fun s => putByte (lane s.din k) s := .of_commutes fun _ => rfl
  have hclear : Blind clearCount := .of_commutes fun _ => rfl
  have hcount : Blind countByte := .of_commutes fun _ => rfl
  exact .ite (c := fun s => s.bcnt = 63#6) (fun _ => Iff.rfl) (hclear.comp (compression_blind.comp hput))
    (hcount.comp hput)

theorem absorbBytes_blind (n k : Nat) : Blind (absorbBytes n k) := by
  induction n generalizing k with
  | zero => exact fun _ _ h => h
  | succ n ih => exact (ih (k + 1)).comp (absorbByte_blind k)

theorem closeMessage_blind : Blind closeMessage := .of_commutes fun _ => rfl

theorem padtail_blind : Blind padtail := by
  have hfirst : Blind padFirst := .of_commutes fun _ => by
    simp only [padFirst, putTerminator, State.withoutScratch]
    rfl
  have hclear : Blind clearForLength := .of_commutes fun _ => by simp only [clearForLength, State.withoutScratch]
  have hlength : Blind writeLength := .of_commutes fun _ => by simp only [writeLength, State.withoutScratch]
  exact .ite (c := fun s => s.bcnt.toNat ≤ 55) (fun _ => Iff.rfl) (compression_blind.comp (hlength.comp hfirst))
    (compression_blind.comp (hlength.comp (hclear.comp (compression_blind.comp hfirst))))

theorem raiseError_blind (code : ErrorCode) : Blind (raiseError code) :=
  .ite (c := fun s => s.err = true) (fun _ => Iff.rfl) (fun _ _ h => h) (.of_commutes fun _ => rfl)

/-- The shared checks look only at what can be seen (R118). -/
theorem command_blind {legal : Bool} {error : State → Option ErrorCode} {run : State → State}
    (herror : ∀ s : State, error s.withoutScratch = error s) (hrun : Blind run) : Blind (command legal error run) := by
  intro s t h
  have herr : s.err = t.err := (congrArg State.err h :)
  have hcheck : error s = error t := by rw [← herror s, ← herror t, h]
  obtain ⟨hl, hs⟩ | ⟨hl, he, hs⟩ | ⟨hl, he, code, hc, hs⟩ | ⟨hl, he, hc, hs⟩ := command_cases legal error run s <;>
    rw [hs, hl]
  · exact raiseError_blind .illegalCommand h
  · rw [command_gated (herr ▸ he)]
    exact h
  · rw [command_raises (herr ▸ he) (hcheck ▸ hc)]
    exact raiseError_blind code h
  · rw [command_runs (herr ▸ he) (hcheck ▸ hc)]
    exact hrun h

/-- A blind operation gives the same outcome up to the scratch. -/
theorem Blind.next {f : State → State} (hf : Blind f) {s t : State} (h : s.withoutScratch = t.withoutScratch) :
    scratchForgotten (.next (f s)) = scratchForgotten (.next (f t)) :=
  congrArg Host.Outcome.next (hf h)

/-- No command shows the scratch it finds. -/
theorem exec_blind (i : Instr) {s t : State} (h : s.withoutScratch = t.withoutScratch) :
    scratchForgotten (exec i s) = scratchForgotten (exec i t) := by
  cases i with
  | nop => exact (command_blind (error := noError) (fun _ => rfl) fun _ _ h => h).next h
  | init => exact (Blind.of_commutes (f := startMessage) fun _ => rfl).next h
  | absorb nb => exact (command_blind (error := absorbError nb) (fun _ => rfl) (absorbBytes_blind nb 0)).next h
  | finish => exact (command_blind (error := finishError) (fun _ => rfl) (closeMessage_blind.comp padtail_blind)).next h
  | loadh i =>
    exact (command_blind (error := noError) (run := fun s => setHashWord i s.din s) (fun _ => rfl)
      (.of_commutes fun _ => rfl)).next h
  | loadm j =>
    exact (command_blind (error := rawError) (run := fun s => setBlockWord j s.din s) (fun _ => rfl)
      (.of_commutes fun _ => by simp only [setBlockWord, State.withoutScratch])).next h
  | compress => exact (command_blind (error := rawError) (fun _ => rfl) compression_blind).next h

theorem dispatchWord_blind (c : Word) {s t : State} (h : s.withoutScratch = t.withoutScratch) :
    scratchForgotten (dispatchWord c s) = scratchForgotten (dispatchWord c t) := by
  unfold dispatchWord
  cases decode c with
  | illegal _ => exact (raiseError_blind .illegalCommand).next h
  | command i => exact exec_blind i h

theorem regWrite_blind (r : Slot) (v : Word) {s t : State} (h : s.withoutScratch = t.withoutScratch) :
    scratchForgotten (regWrite r v s) = scratchForgotten (regWrite r v t) := by
  cases r with
  | cmd => exact dispatchWord_blind v h
  | din => exact (Blind.of_commutes (f := fun s => { s with din := v }) fun _ => rfl).next h
  | _ => exact congrArg Host.Outcome.next h

theorem regRead_withoutScratch (r : Slot) (s : State) : regRead r s.withoutScratch = regRead r s := by
  cases r <;> rfl

theorem noteRead_blind (r : Slot) : Blind fun s => noteResult (regRead r s) s :=
  .of_commutes fun s => by rw [regRead_withoutScratch]; rfl

/-- A host access is refused, or answers, alike (R41, R129). -/
theorem performAccess_blind (a : Access) {s t : State} (h : s.withoutScratch = t.withoutScratch) :
    scratchForgotten (performAccess a s) = scratchForgotten (performAccess a t) := by
  have hline : s.resetLine = t.resetLine := (congrArg State.resetLine h :)
  unfold performAccess
  rw [hline]
  cases t.resetLine
  · cases accessSlot a with
    | error _ => rfl
    | ok r =>
      obtain ⟨op, width, disp⟩ := a
      cases op with
      | read => exact (noteRead_blind r).next h
      | write v => exact regWrite_blind r v h
  · rfl

/-! ## A command cut short -/

/-- Reset leaves of a state only its waiting events and read results (R129; log 20). -/
theorem assertReset_withoutScratch_eq {s t : State} (hp : s.pending = t.pending) (hr : s.results = t.results) :
    (assertReset s).withoutScratch = (assertReset t).withoutScratch :=
  withoutScratch_eq_iff.mpr (by simp [hp, hr])

/-- ABSORB's loop leaves the waiting events and the read results alone, wherever it is cut (logs 1 and 2). -/
theorem absorbRun_queues (n k : Nat) (s : State) :
    (absorbRun n k s).now.pending = s.pending ∧ (absorbRun n k s).now.results = s.results := by
  induction n generalizing k s with
  | zero => exact ⟨rfl, rfl⟩
  | succ n ih =>
    unfold absorbRun
    split
    · simp
    · simpa using ih (k + 1) (countByte (putByte (lane s.din k) s))

/-- What follows a compression leaves them alone. -/
theorem resume_queues (r : Rest) (s : State) :
    (resume r s).now.pending = s.pending ∧ (resume r s).now.results = s.results := by
  cases r with
  | nothing => exact ⟨rfl, rfl⟩
  | absorb k n => simpa [resume] using absorbRun_queues n k (clearCount s)
  | finishSecond => simp [resume]
  | finishLast => simp [resume]

/-- One micro-step of a command leaves them alone, with what follows it. -/
theorem tick_queues (r : Running) :
    (tick r).now.pending = r.now.pending ∧ (tick r).now.results = r.now.results := by
  unfold tick
  split
  · exact ⟨rfl, rfl⟩
  · next rest _ =>
    split
    · simpa using resume_queues rest (microStep r.now)
    · simp

theorem ticks_queues (n : Nat) (r : Running) :
    (ticks n r).now.pending = r.now.pending ∧ (ticks n r).now.results = r.now.results := by
  induction n generalizing r with
  | zero => exact ⟨rfl, rfl⟩
  | succ n ih => simpa [ticks, tick_queues] using ih (tick r)

/-- The shared checks leave them alone when the effect does. -/
theorem command_queues {legal : Bool} {error : State → Option ErrorCode} {run : State → State} {s : State}
    (hrun : (run s).pending = s.pending ∧ (run s).results = s.results) :
    (command legal error run s).pending = s.pending ∧ (command legal error run s).results = s.results :=
  ⟨command_preserves State.pending (by simp) hrun.1, command_preserves State.results (by simp) hrun.2⟩

/-- The start of a command leaves them alone. -/
theorem beginCommand_queues (i : Instr) (s : State) :
    (beginCommand i s).now.pending = s.pending ∧ (beginCommand i s).now.results = s.results := by
  cases i with
  | nop => exact command_queues ⟨rfl, rfl⟩
  | init => simp [beginCommand]
  | absorb nb =>
    simp only [beginCommand]
    split
    · exact absorbRun_queues nb 0 s
    · exact command_queues ⟨rfl, rfl⟩
  | finish =>
    simp only [beginCommand]
    split
    · split <;> simp
    · exact command_queues ⟨rfl, rfl⟩
  | loadh i => exact command_queues (run := fun s => setHashWord i s.din s) (by simp)
  | loadm j => exact command_queues (run := fun s => setBlockWord j s.din s) (by simp)
  | compress =>
    simp only [beginCommand]
    split
    · simp
    · exact command_queues ⟨rfl, rfl⟩

/-- A command cut short after any number of micro-steps has left them alone (log 9). -/
theorem cutState_queues (c : Word) (n : Nat) (s : State) :
    (cutState c n s).pending = s.pending ∧ (cutState c n s).results = s.results := by
  unfold cutState
  split
  · simp
  · next i _ => simpa [beginCommand_queues] using ticks_queues n (beginCommand i s)

theorem assertReset_blind : Blind assertReset := fun _ _ h =>
  assertReset_withoutScratch_eq (congrArg State.pending h :) (congrArg State.results h :)

/-- Reset inside a command hides how far the command went (R129). -/
theorem cutCommand_blind (c : Word) (n : Nat) : Blind fun s => assertReset (cutState c n s) := by
  intro s t h
  obtain ⟨hps, hrs⟩ := cutState_queues c n s
  obtain ⟨hpt, hrt⟩ := cutState_queues c n t
  apply assertReset_withoutScratch_eq
  · rw [hps, hpt]
    exact (congrArg State.pending h :)
  · rw [hrs, hrt]
    exact (congrArg State.results h :)

/-- No host event shows the scratch it finds. -/
theorem perform_blind (e : HostEvent) {s t : State} (h : s.withoutScratch = t.withoutScratch) :
    scratchForgotten (perform e s) = scratchForgotten (perform e t) := by
  cases e with
  | access a => exact performAccess_blind a h
  | commandCut c n =>
    have hline : s.resetLine = t.resetLine := (congrArg State.resetLine h :)
    simp only [perform, hline]
    split
    · rfl
    · exact (cutCommand_blind c n).next h
  | resetAssert => exact assertReset_blind.next h
  | resetRelease => exact (Blind.of_commutes (f := fun s => { s with resetLine := false }) fun _ => rfl).next h

/-- Settles O60 (R33, R93): both idle engines perform the same oldest event, and no event looks at the scratch. -/
theorem hiddenScratchIsNeverSeen : Obligations.HiddenScratchIsNeverSeen := by
  intro s t hs h
  have ht : t.seq.phase = .idle :=
    (phase_eq_of_withoutFreeCounter_eq (congrArg State.seq h :)).symm.trans hs
  have hpending : s.pending = t.pending := (congrArg State.pending h :)
  cases hp : t.pending with
  | nil =>
    rw [step_nothing_waits hs (hpending.trans hp), step_nothing_waits ht hp]
    exact congrArg Host.Outcome.next h
  | cons e es =>
    rw [step_performs hs (hpending.trans hp), step_performs ht hp]
    have htaken : Blind (State.setPending · es) := .of_commutes fun _ => rfl
    exact perform_blind e (htaken h)

end Sys2Proof.Machine
end

section
/-! PROOFS. The numeric value of the byte lanes and of `be32` (spec/20_memory.md R39, spec/00_scope.md R13). -/

namespace Sys2Proof.Machine

/-- Lane `k` is the quotient of the word by the weight of its lowest bit, modulo 256. -/
theorem lane_toNat (v : Word) (k : Nat) : (lane v k).toNat = v.toNat / 2 ^ (24 - 8 * k) % 256 := by
  rw [lane, BitVec.extractLsb'_toNat, Nat.shiftRight_eq_div_pow]

/-- A byte appended to a bit vector is a digit in base 256. -/
theorem append_byte_toNat {n : Nat} (x : BitVec n) (b : Byte) : (x ++ b).toNat = x.toNat * 2 ^ 8 + b.toNat := by
  rw [BitVec.toNat_append, ← Nat.shiftLeft_add_eq_or_of_lt b.isLt, Nat.shiftLeft_eq]

/-- Settles O36 (R39, R13). -/
theorem lanesAreBigEndian : Obligations.LanesAreBigEndian := by
  refine ⟨fun v k _ => lane_toNat v k, fun b0 b1 b2 b3 => ?_⟩
  simp only [be32, append_byte_toNat]
  omega

end Sys2Proof.Machine
end

section
/-! PROOFS. Which host accesses reach a register, and which are refused (spec/20_memory.md R37, R41,
spec/70_reset_and_hazards.md R129, R132). -/

namespace Sys2Proof.Machine

/-- The offsets of the window that hold a register are its multiples of 4 (R31). -/
theorem slotAt_isSome_iff {off : Nat} (h : off < 64) : (slotAt off).isSome ↔ off % 4 = 0 := by
  have hall : ∀ n < 64, (slotAt n).isSome ↔ n % 4 = 0 := by decide
  exact hall off h

theorem accessSlot_outside {a : Access} (hw : a.width = 32) (h : a.disp < 0 ∨ 64 ≤ a.disp) :
    accessSlot a = .error .accessOutsideWindow := by
  simp [accessSlot, hw, h]

/-- Inside the window an access of the right width is refused only where no register stands. -/
theorem accessSlot_inside {a : Access} (hw : a.width = 32) (h0 : 0 ≤ a.disp) (h64 : a.disp < 64) :
    (∃ r, accessSlot a = .error r) ↔ a.disp % 4 ≠ 0 := by
  have hsome := slotAt_isSome_iff (off := a.disp.toNat) (by omega)
  have halign : a.disp.toNat % 4 = 0 ↔ a.disp % 4 = 0 := by omega
  have hin : ¬ (a.disp < 0 ∨ 64 ≤ a.disp) := by omega
  rw [ne_eq, ← halign, ← hsome]
  cases hslot : slotAt a.disp.toNat <;> simp [accessSlot, hw, hin, hslot]

/-- The accesses outside the interface (R41, R132). -/
theorem accessSlot_refuses_iff (a : Access) : (∃ r, accessSlot a = .error r) ↔
    (a.width ≠ 32 ∨ a.disp < 0 ∨ 64 ≤ a.disp ∨ a.disp % 4 ≠ 0) := by
  by_cases hw : a.width = 32
  · by_cases hout : a.disp < 0 ∨ 64 ≤ a.disp
    · rw [accessSlot_outside hw hout]
      simp only [Except.error.injEq, exists_eq', true_iff]
      tauto
    · rw [accessSlot_inside hw (by omega) (by omega)]
      tauto
  · simp [accessSlot, hw]

/-- Every command answers a next state. -/
theorem exec_answers (i : Instr) (s : State) : ∃ t, exec i s = .next t := by
  cases i <;> exact ⟨_, rfl⟩

/-- So does every word written to CMD, legal or illegal (R102). -/
theorem dispatchWord_answers (c : Word) (s : State) : ∃ t, dispatchWord c s = .next t := by
  unfold dispatchWord
  cases decode c with
  | illegal _ => exact ⟨_, rfl⟩
  | command i => exact exec_answers i s

/-- An access that reaches a register is performed (R100, R101). -/
theorem regAccess_answers (op : AccessOp) (r : Slot) (s : State) : ∃ t, regAccess op r s = .next t := by
  cases op with
  | read => exact ⟨_, rfl⟩
  | write v =>
    cases r with
    | cmd => exact dispatchWord_answers v s
    | _ => exact ⟨_, rfl⟩

/-- A host access is refused in reset, or when it reaches no register (R41, R129). -/
theorem performAccess_refuses_iff (a : Access) (s : State) : (∃ r, performAccess a s = .refused r) ↔
    (s.resetLine = true ∨ ∃ r, accessSlot a = .error r) := by
  cases hline : s.resetLine
  · cases hslot : accessSlot a with
    | error r => simp [performAccess, hline, hslot]
    | ok r =>
      obtain ⟨t, ht⟩ := regAccess_answers a.op r s
      simp [performAccess, hline, hslot, ht]
  · simp [performAccess, hline]

/-- Settles O12 (R41, R129, R132): the step of an idle engine is the access. -/
theorem accessRefusedExactlyOutsideTheInterface : Obligations.AccessRefusedExactlyOutsideTheInterface := by
  intro s a es hs hp
  have hline : (s.setPending es).resetLine = s.resetLine := by simp
  rw [step_performs hs hp, perform, performAccess_refuses_iff, accessSlot_refuses_iff, hline]

/-- Address `SHA_BASE + off` is offset `off` of the window (R37). -/
theorem accessAt_shaBase_add (off : Nat) (op : AccessOp) :
    accessAt (Config.shaBase + off) 32 op = accessOffset off op := by
  simp [accessAt, accessOffset]

/-- Settles O13 (R37, R132; log 10). -/
theorem windowDecodesBasePlusOffset : Obligations.WindowDecodesBasePlusOffset := by
  refine ⟨Nat.mul_mod_right 64 _, fun off op hoff halign => ?_, fun a op hout => ?_⟩
  · obtain ⟨r, hr⟩ := Option.isSome_iff_exists.mp ((slotAt_isSome_iff hoff).mpr halign)
    exact ⟨r, hr, accessAt_shaBase_add off op ▸ accessSlot_offset hr hoff⟩
  · refine accessSlot_outside rfl ?_
    simp only [accessAt]
    omega

end Sys2Proof.Machine
end

section
/-! PROOFS. No host event looks at the events that wait behind it (spec/20_memory.md R42, R47; log 1). -/

namespace Sys2Proof.Machine

/-- A command in progress with other events waiting behind it. -/
def Running.setPending (r : Running) (es : List HostEvent) : Running := ⟨r.now.setPending es, r.rest⟩

/-- The outcome of a step with other events waiting behind it. -/
def outcomeSetPending (x : Result) (es : List HostEvent) : Result :=
  match x with
  | .next t => .next (t.setPending es)
  | .fault r => .fault r
  | .refused r => .refused r

/-- `f` neither reads nor writes the waiting events: with others waiting it answers the same, with those waiting.
`put` places events in what `f` answers: a state, a command in progress or an outcome. -/
def IgnoresQueue {α : Type} (put : α → List HostEvent → α) (f : State → α) : Prop :=
  ∀ (s : State) (es : List HostEvent), f (s.setPending es) = put (f s) es

section
variable {α : Type} {put : α → List HostEvent → α}

theorem IgnoresQueue.comp {f : State → State} {g : State → α} (hg : IgnoresQueue put g)
    (hf : IgnoresQueue State.setPending f) : IgnoresQueue put fun s => g (f s) :=
  fun s es => (congrArg g (hf s es)).trans (hg (f s) es)

/-- A choice by something other than the waiting events. -/
theorem IgnoresQueue.ite {c : State → Prop} [DecidablePred c] {f g : State → α}
    (hc : ∀ s es, c (s.setPending es) ↔ c s) (hf : IgnoresQueue put f) (hg : IgnoresQueue put g) :
    IgnoresQueue put fun s => if c s then f s else g s := by
  intro s es
  by_cases hs : c s
  · simpa only [hc, hs, if_true] using hf s es
  · simpa only [hc, hs, if_false] using hg s es

end

/-- An operation on the state, and then a fixed rest of the command. -/
theorem IgnoresQueue.running {f : State → State} (hf : IgnoresQueue State.setPending f) (rest : Option Rest) :
    IgnoresQueue Running.setPending fun s => ⟨f s, rest⟩ :=
  fun s es => congrArg (Running.mk · rest) (hf s es)

/-- An operation that always answers. -/
theorem IgnoresQueue.next {f : State → State} (hf : IgnoresQueue State.setPending f) :
    IgnoresQueue outcomeSetPending fun s => .next (f s) :=
  fun s es => congrArg Host.Outcome.next (hf s es)

/-! ## The micro-sequencer -/

theorem expandStep_ignoresQueue (k : Fin 64) : IgnoresQueue State.setPending (expandStep k) := by
  intro s es
  unfold expandStep
  split <;> rfl

/-- A micro-step looks at SEQ and at the datapath (R85 to R88). -/
theorem microStep_ignoresQueue : IgnoresQueue State.setPending microStep := by
  intro s es
  have hseq : (s.setPending es).seq = s.seq := rfl
  unfold microStep
  rw [hseq]
  cases s.seq.phase with
  | expand => exact expandStep_ignoresQueue s.seq.t s es
  | _ => rfl

theorem microSteps_ignoresQueue (n : Nat) : IgnoresQueue State.setPending (microSteps n) := by
  induction n with
  | zero => exact fun _ _ => rfl
  | succ n ih => exact ih.comp microStep_ignoresQueue

theorem startCompression_ignoresQueue : IgnoresQueue State.setPending startCompression := fun _ _ => rfl

theorem compression_ignoresQueue : IgnoresQueue State.setPending compression :=
  (microSteps_ignoresQueue compressionSteps).comp startCompression_ignoresQueue

/-! ## The commands -/

theorem raiseError_ignoresQueue (code : ErrorCode) : IgnoresQueue State.setPending (raiseError code) :=
  .ite (c := fun s => s.err = true) (fun _ _ => Iff.rfl) (fun _ _ => rfl) fun _ _ => rfl

/-- The shared checks look at ERR and at what the command's own check reads (R118). -/
theorem command_ignoresQueue {legal : Bool} {error : State → Option ErrorCode} {run : State → State}
    (herror : ∀ s es, error (State.setPending s es) = error s) (hrun : IgnoresQueue State.setPending run) :
    IgnoresQueue State.setPending (command legal error run) := by
  intro s es
  have herr : (s.setPending es).err = s.err := rfl
  obtain ⟨hl, hs⟩ | ⟨hl, he, hs⟩ | ⟨hl, he, code, hc, hs⟩ | ⟨hl, he, hc, hs⟩ := command_cases legal error run s <;>
    rw [hs, hl]
  · exact raiseError_ignoresQueue .illegalCommand s es
  · exact command_gated (herr.trans he)
  · rw [command_raises (herr.trans he) ((herror s es).trans hc)]
    exact raiseError_ignoresQueue code s es
  · rw [command_runs (herr.trans he) ((herror s es).trans hc)]
    exact hrun s es

/-- The store of one lane of DIN (R105). -/
theorem putLane_ignoresQueue (k : Nat) : IgnoresQueue State.setPending fun s => putByte (lane s.din k) s :=
  fun _ _ => rfl

theorem countByte_ignoresQueue : IgnoresQueue State.setPending countByte := fun _ _ => rfl

theorem clearCount_ignoresQueue : IgnoresQueue State.setPending clearCount := fun _ _ => rfl

theorem closeMessage_ignoresQueue : IgnoresQueue State.setPending closeMessage := fun _ _ => rfl

theorem padFirst_ignoresQueue : IgnoresQueue State.setPending padFirst := fun _ _ => by
  simp only [padFirst, putTerminator, State.setPending]
  rfl

theorem clearForLength_ignoresQueue : IgnoresQueue State.setPending clearForLength := fun _ _ => by
  simp only [clearForLength, State.setPending]

theorem writeLength_ignoresQueue : IgnoresQueue State.setPending writeLength := fun _ _ => by
  simp only [writeLength, State.setPending]

theorem loadh_ignoresQueue (i : Nat) :
    IgnoresQueue State.setPending (command (decide (i < 8)) noError fun s => setHashWord i s.din s) :=
  command_ignoresQueue (fun _ _ => rfl) fun _ _ => rfl

theorem loadm_ignoresQueue (j : Nat) :
    IgnoresQueue State.setPending (command (decide (j < 16)) rawError fun s => setBlockWord j s.din s) :=
  command_ignoresQueue (fun _ _ => rfl) fun _ _ => by simp only [setBlockWord, State.setPending]

/-- One turn of ABSORB's loop (R105). -/
theorem absorbByte_ignoresQueue (k : Nat) : IgnoresQueue State.setPending (absorbByte k) :=
  .ite (c := fun s => s.bcnt = 63#6) (fun _ _ => Iff.rfl)
    (clearCount_ignoresQueue.comp (compression_ignoresQueue.comp (putLane_ignoresQueue k)))
    (countByte_ignoresQueue.comp (putLane_ignoresQueue k))

theorem absorbBytes_ignoresQueue (n k : Nat) : IgnoresQueue State.setPending (absorbBytes n k) := by
  induction n generalizing k with
  | zero => exact fun _ _ => rfl
  | succ n ih => exact (ih (k + 1)).comp (absorbByte_ignoresQueue k)

theorem padtail_ignoresQueue : IgnoresQueue State.setPending padtail :=
  .ite (c := fun s => s.bcnt.toNat ≤ 55) (fun _ _ => Iff.rfl)
    (compression_ignoresQueue.comp (writeLength_ignoresQueue.comp padFirst_ignoresQueue))
    (compression_ignoresQueue.comp (writeLength_ignoresQueue.comp
      (clearForLength_ignoresQueue.comp (compression_ignoresQueue.comp padFirst_ignoresQueue))))

/-! ## A command cut short -/

theorem assertReset_ignoresQueue : IgnoresQueue State.setPending assertReset := fun _ _ => rfl

theorem absorbRun_ignoresQueue (n k : Nat) : IgnoresQueue Running.setPending (absorbRun n k) := by
  induction n generalizing k with
  | zero => exact fun _ _ => rfl
  | succ n ih =>
    exact .ite (c := fun s => s.bcnt = 63#6) (fun _ _ => Iff.rfl)
      ((startCompression_ignoresQueue.comp (putLane_ignoresQueue k)).running _)
      ((ih (k + 1)).comp (countByte_ignoresQueue.comp (putLane_ignoresQueue k)))

theorem resume_ignoresQueue (r : Rest) : IgnoresQueue Running.setPending (resume r) := by
  cases r with
  | nothing => exact fun _ _ => rfl
  | absorb k n => exact (absorbRun_ignoresQueue n k).comp clearCount_ignoresQueue
  | finishSecond =>
    exact (startCompression_ignoresQueue.comp
      (writeLength_ignoresQueue.comp clearForLength_ignoresQueue)).running _
  | finishLast => exact closeMessage_ignoresQueue.running none

/-- The start of a command looks only at what its checks read (R118). -/
theorem beginCommand_ignoresQueue (i : Instr) : IgnoresQueue Running.setPending (beginCommand i) := by
  have hid : IgnoresQueue State.setPending id := fun _ _ => rfl
  cases i with
  | nop => exact (command_ignoresQueue (fun _ _ => rfl) hid).running none
  | init => exact fun _ _ => rfl
  | absorb nb =>
    exact .ite (c := fun s => (decide (1 ≤ nb ∧ nb ≤ 4) && goesAhead (absorbError nb) s) = true)
      (fun _ _ => Iff.rfl) (absorbRun_ignoresQueue nb 0) ((command_ignoresQueue (fun _ _ => rfl) hid).running none)
  | finish =>
    have hpad : IgnoresQueue Running.setPending fun s =>
        if s.bcnt.toNat ≤ 55 then ⟨startCompression (writeLength (padFirst s)), some .finishLast⟩
        else ⟨startCompression (padFirst s), some .finishSecond⟩ :=
      .ite (c := fun s => s.bcnt.toNat ≤ 55) (fun _ _ => Iff.rfl)
        ((startCompression_ignoresQueue.comp (writeLength_ignoresQueue.comp padFirst_ignoresQueue)).running _)
        ((startCompression_ignoresQueue.comp padFirst_ignoresQueue).running _)
    exact .ite (c := fun s => goesAhead finishError s = true) (fun _ _ => Iff.rfl) hpad
      ((command_ignoresQueue (fun _ _ => rfl) hid).running none)
  | loadh i => exact (loadh_ignoresQueue i).running none
  | loadm j => exact (loadm_ignoresQueue j).running none
  | compress =>
    exact .ite (c := fun s => goesAhead rawError s = true) (fun _ _ => Iff.rfl)
      (startCompression_ignoresQueue.running _) ((command_ignoresQueue (fun _ _ => rfl) hid).running none)

theorem tick_setPending (r : Running) (es : List HostEvent) : tick (r.setPending es) = (tick r).setPending es := by
  obtain ⟨s, rest⟩ := r
  cases rest with
  | none => rfl
  | some rest =>
    have hnext : IgnoresQueue Running.setPending fun s =>
        if s.seq.phase = .idle then resume rest s else ⟨s, some rest⟩ :=
      .ite (c := fun s => s.seq.phase = .idle) (fun _ _ => Iff.rfl) (resume_ignoresQueue rest) fun _ _ => rfl
    exact hnext.comp microStep_ignoresQueue s es

theorem ticks_setPending (n : Nat) (r : Running) (es : List HostEvent) :
    ticks n (r.setPending es) = (ticks n r).setPending es := by
  induction n generalizing r with
  | zero => rfl
  | succ n ih => rw [ticks, tick_setPending, ih, ticks]

theorem cutState_ignoresQueue (c : Word) (n : Nat) : IgnoresQueue State.setPending (cutState c n) := by
  intro s es
  unfold cutState
  cases decode c with
  | illegal _ => exact raiseError_ignoresQueue .illegalCommand s es
  | command i =>
    simp only [beginCommand_ignoresQueue i s es, ticks_setPending]
    rfl

/-! ## The host's events -/

/-- No command looks at what waits behind it (R42). -/
theorem exec_ignoresQueue (i : Instr) : IgnoresQueue outcomeSetPending (exec i) := by
  cases i with
  | nop => exact (command_ignoresQueue (fun _ _ => rfl) fun _ _ => rfl).next
  | init => exact fun _ _ => rfl
  | absorb nb => exact (command_ignoresQueue (fun _ _ => rfl) (absorbBytes_ignoresQueue nb 0)).next
  | finish => exact (command_ignoresQueue (fun _ _ => rfl) (closeMessage_ignoresQueue.comp padtail_ignoresQueue)).next
  | loadh i => exact (loadh_ignoresQueue i).next
  | loadm j => exact (loadm_ignoresQueue j).next
  | compress => exact (command_ignoresQueue (fun _ _ => rfl) compression_ignoresQueue).next

theorem dispatchWord_ignoresQueue (c : Word) : IgnoresQueue outcomeSetPending (dispatchWord c) := by
  intro s es
  unfold dispatchWord
  cases decode c with
  | illegal _ => exact (raiseError_ignoresQueue .illegalCommand).next s es
  | command i => exact exec_ignoresQueue i s es

theorem regRead_setPending (r : Slot) (s : State) (es : List HostEvent) :
    regRead r (s.setPending es) = regRead r s := by
  cases r <;> rfl

theorem regAccess_ignoresQueue (op : AccessOp) (r : Slot) : IgnoresQueue outcomeSetPending (regAccess op r) := by
  intro s es
  cases op with
  | read =>
    simp only [regAccess, regRead_setPending]
    rfl
  | write v =>
    cases r with
    | cmd => exact dispatchWord_ignoresQueue v s es
    | _ => rfl

/-- A host access is refused, or answers, alike (R41, R129). -/
theorem performAccess_ignoresQueue (a : Access) : IgnoresQueue outcomeSetPending (performAccess a) := by
  intro s es
  have hline : (s.setPending es).resetLine = s.resetLine := rfl
  unfold performAccess
  rw [hline]
  cases s.resetLine
  · cases accessSlot a with
    | error _ => rfl
    | ok r => exact regAccess_ignoresQueue a.op r s es
  · rfl

/-- No host event looks at the events behind it. -/
theorem perform_ignoresQueue (e : HostEvent) : IgnoresQueue outcomeSetPending (perform e) := by
  cases e with
  | access a => exact performAccess_ignoresQueue a
  | commandCut c n =>
    intro s es
    have hline : (s.setPending es).resetLine = s.resetLine := rfl
    simp only [perform, hline]
    cases s.resetLine
    · exact (assertReset_ignoresQueue.comp (cutState_ignoresQueue c n)).next s es
    · rfl
  | resetAssert => exact assertReset_ignoresQueue.next
  | resetRelease => exact fun _ _ => rfl

/-- An event performed on a state that holds `es` leaves `es` waiting. -/
theorem perform_pending {e : HostEvent} {s t : State} {es : List HostEvent}
    (h : perform e (s.setPending es) = .next t) : t.pending = es := by
  have hback := perform_ignoresQueue e (s.setPending es) es
  have hsame : (s.setPending es).setPending es = s.setPending es := rfl
  rw [hsame, h, outcomeSetPending, Host.Outcome.next.injEq] at hback
  rw [hback, State.setPending]

/-- Settles O14 (R42, R47): the step takes the oldest event off, and performs it without a look at the rest. -/
theorem stepPerformsExactlyTheOldestEvent : Obligations.StepPerformsExactlyTheOldestEvent := by
  intro s t e es hs hp h
  rw [step_performs hs hp] at h
  refine ⟨perform_pending h, fun fs => ?_⟩
  have hstep : step { s with pending := e :: fs } = perform e (s.setPending fs) := step_performs hs rfl
  have hother := perform_ignoresQueue e (s.setPending es) fs
  rw [h] at hother
  exact hstep.trans hother

end Sys2Proof.Machine
end

section
/-! SUPPORT. The decoder of the command word: what its fields are worth, which words each row of the opcode map selects,
and when a word is a command (spec/30_encoding.md R52 to R56). -/

namespace Sys2Proof

open Sys2Proof.Machine Sys2Proof.Laws
open Sys2Proof.Laws.EncodingMatchesRow (opOf)

/-! ## The fields of a word (R52, R53) -/

theorem opField_toNat (c : Word) : (opField c).toNat = c.toNat % 2 ^ 4 := by
  simp [opField]

theorem idxField_toNat (c : Word) : (idxField c).toNat = c.toNat / 2 ^ 4 % 2 ^ 4 := by
  rw [idxField, BitVec.extractLsb'_toNat, Nat.shiftRight_eq_div_pow]

theorem nbm1Field_toNat (c : Word) : (nbm1Field c).toNat = c.toNat / 2 ^ 8 % 2 ^ 2 := by
  rw [nbm1Field, BitVec.extractLsb'_toNat, Nat.shiftRight_eq_div_pow]

theorem rsvField_toNat (c : Word) : (rsvField c).toNat = c.toNat / 2 ^ 10 := by
  have := c.isLt
  rw [rsvField, BitVec.extractLsb'_toNat, Nat.shiftRight_eq_div_pow]
  omega

/-- The four fields make up the word. -/
theorem toNat_eq_fields (c : Word) : c.toNat =
    (opField c).toNat + 2 ^ 4 * (idxField c).toNat + 2 ^ 8 * (nbm1Field c).toNat + 2 ^ 10 * (rsvField c).toNat := by
  rw [opField_toNat, idxField_toNat, nbm1Field_toNat, rsvField_toNat]
  omega

theorem eq_iff_fields_eq {c d : Word} : c = d ↔
    opField c = opField d ∧ rsvField c = rsvField d ∧ idxField c = idxField d ∧ nbm1Field c = nbm1Field d := by
  refine ⟨fun h => by simp [h], fun ⟨hop, hrsv, hidx, hnbm1⟩ => BitVec.eq_of_toNat_eq ?_⟩
  rw [toNat_eq_fields c, toNat_eq_fields d, hop, hrsv, hidx, hnbm1]

/-- `commandWord` places each field at its own bits: above OP, first IDX and then NBM1. -/
theorem commandWord_toNat {op idx nbm1 : Nat} (hop : op < 2 ^ 4) (hidx : idx < 2 ^ 4) (hnbm1 : nbm1 < 2 ^ 2) :
    (commandWord op idx nbm1).toNat = op + 2 ^ 4 * idx + 2 ^ 8 * nbm1 := by
  have hword : (BitVec.ofNat 32 op).toNat = op := Nat.mod_eq_of_lt (by omega)
  have hwith := toNat_or_shiftLeft_setWidth (BitVec.ofNat 4 idx) (k := 4) (hword.trans_lt hop) (by omega)
  rw [BitVec.setWidth_ofNat_of_le_of_lt (by omega) hidx, hword, BitVec.toNat_ofNat, Nat.mod_eq_of_lt hidx] at hwith
  have hall := toNat_or_shiftLeft_setWidth (BitVec.ofNat 2 nbm1) (k := 8) (hwith.trans_lt (by omega)) (by omega)
  rwa [BitVec.setWidth_ofNat_of_le_of_lt (by omega) hnbm1, hwith, BitVec.toNat_ofNat, Nat.mod_eq_of_lt hnbm1] at hall

/-- A word whose reserved bits are zero is put together from its fields. -/
theorem commandWord_fields {c : Word} (h : rsvField c = 0#22) :
    commandWord (opField c).toNat (idxField c).toNat (nbm1Field c).toNat = c := by
  apply BitVec.eq_of_toNat_eq
  rw [commandWord_toNat (opField c).isLt (idxField c).isLt (nbm1Field c).isLt, toNat_eq_fields c, h]
  simp

/-- The three index bits of LOADH are the whole IDX when bit 7 is clear (R56). -/
theorem loadh_index_eq_idxField {c : Word} (h : c.getLsbD 7 = false) :
    (c.extractLsb' 4 3).toNat = (idxField c).toNat := by
  rw [← BitVec.testBit_toNat, Nat.testBit_eq_decide_div_mod_eq, decide_eq_false_iff_not] at h
  rw [idxField_toNat, BitVec.extractLsb'_toNat, Nat.shiftRight_eq_div_pow]
  omega

/-! ## The words that a row selects (R54) -/

/-- What the row of a command asks of IDX and NBM1: to be zero, but for the bits that hold its operand (R54). -/
def Instr.operandBitsFit (c : Word) : Instr → Prop
  | .absorb _ => idxField c = 0#4
  | .loadh _ => c.getLsbD 7 = false ∧ nbm1Field c = 0#2
  | .loadm _ => nbm1Field c = 0#2
  | _ => idxField c = 0#4 ∧ nbm1Field c = 0#2

/-- A row compares field by field, each under its part of the mask. -/
theorem Row.selects_iff_fields (r : Row) (c : Word) : r.selects c = true ↔
    opField c &&& opField r.mask = opField r.pattern ∧ rsvField c &&& rsvField r.mask = rsvField r.pattern ∧
      idxField c &&& idxField r.mask = idxField r.pattern ∧ nbm1Field c &&& nbm1Field r.mask = nbm1Field r.pattern := by
  rw [Row.selects, beq_iff_eq, eq_iff_fields_eq]
  simp only [opField, rsvField, idxField, nbm1Field, BitVec.extractLsb'_and]

/-- Every row fixes OP, and fixes the reserved bits to zero (R54). -/
theorem row_fixes_op_and_rsv (i : Instr) : opField i.row.mask = BitVec.allOnes 4 ∧ opField i.row.pattern = opOf i ∧
    rsvField i.row.mask = BitVec.allOnes 22 ∧ rsvField i.row.pattern = 0#22 := by
  cases i <;> simp only [Instr.row, opOf] <;> decide

/-- What the masks leave of IDX and NBM1 has to be zero (R54). -/
theorem row_pattern_idx_nbm1 (i : Instr) : idxField i.row.pattern = 0#4 ∧ nbm1Field i.row.pattern = 0#2 := by
  cases i <;> simp only [Instr.row] <;> decide

/-- The mask of LOADH leaves of IDX its bit 3, which is bit 7 of the word. -/
theorem idxField_and_eight (c : Word) : idxField c &&& 8#4 = 0#4 ↔ c.getLsbD 7 = false := by
  have hall : ∀ x : BitVec 4, x &&& 8#4 = 0#4 ↔ x.getLsbD 3 = false := by decide
  rw [hall, idxField, BitVec.getLsbD_extractLsb']
  simp

/-- The mask bits over IDX and NBM1 ask what `operandBitsFit` says. -/
theorem operandBitsFit_iff (i : Instr) (c : Word) :
    i.operandBitsFit c ↔ idxField c &&& idxField i.row.mask = 0#4 ∧ nbm1Field c &&& nbm1Field i.row.mask = 0#2 := by
  cases i with
  | absorb _ =>
    have hidx : idxField 0xFFFFFCFF#32 = BitVec.allOnes 4 := by decide
    have hnbm1 : nbm1Field 0xFFFFFCFF#32 = 0#2 := by decide
    simp only [Instr.operandBitsFit, Instr.row, hidx, hnbm1, BitVec.and_allOnes, BitVec.and_zero, and_true]
  | loadh _ =>
    have hidx : idxField 0xFFFFFF8F#32 = 8#4 := by decide
    have hnbm1 : nbm1Field 0xFFFFFF8F#32 = BitVec.allOnes 2 := by decide
    simp only [Instr.operandBitsFit, Instr.row, hidx, hnbm1, BitVec.and_allOnes, idxField_and_eight]
  | loadm _ =>
    have hidx : idxField 0xFFFFFF0F#32 = 0#4 := by decide
    have hnbm1 : nbm1Field 0xFFFFFF0F#32 = BitVec.allOnes 2 := by decide
    simp only [Instr.operandBitsFit, Instr.row, hidx, hnbm1, BitVec.and_allOnes, BitVec.and_zero, true_and]
  | _ =>
    have hidx : idxField 0xFFFFFFFF#32 = BitVec.allOnes 4 := by decide
    have hnbm1 : nbm1Field 0xFFFFFFFF#32 = BitVec.allOnes 2 := by decide
    simp only [Instr.operandBitsFit, Instr.row, hidx, hnbm1, BitVec.and_allOnes]

/-- A row selects the words with its command's OP, the reserved bits zero, and the rest as `operandBitsFit` says. -/
theorem selects_iff (i : Instr) (c : Word) :
    i.row.selects c = true ↔ opField c = opOf i ∧ rsvField c = 0#22 ∧ i.operandBitsFit c := by
  obtain ⟨hopm, hopp, hrsvm, hrsvp⟩ := row_fixes_op_and_rsv i
  obtain ⟨hidxp, hnbm1p⟩ := row_pattern_idx_nbm1 i
  rw [Row.selects_iff_fields, operandBitsFit_iff, hopm, hopp, hrsvm, hrsvp, hidxp, hnbm1p, BitVec.and_allOnes,
    BitVec.and_allOnes]

/-! ## When a word is a command (R54, R56) -/

/-- The command of `i`'s row with the operands that the fields of `c` hold (R53). -/
def Instr.withOperandsOf (c : Word) : Instr → Instr
  | .absorb _ => .absorb ((nbm1Field c).toNat + 1)
  | .loadh _ => .loadh (c.extractLsb' 4 3).toNat
  | .loadm _ => .loadm (idxField c).toNat
  | i => i

@[simp] theorem withOperandsOf_row (c : Word) (i : Instr) : (i.withOperandsOf c).row = i.row := by
  cases i <;> rfl

@[simp] theorem withOperandsOf_twice (c : Word) (i : Instr) :
    (i.withOperandsOf c).withOperandsOf c = i.withOperandsOf c := by
  cases i <;> rfl

/-- OP is that of one of the seven commands, or 0x7 to 0xF (R54, R56). -/
theorem opField_cases (c : Word) : 7 ≤ (opField c).toNat ∨ ∃ i : Instr, opField c = opOf i := by
  have hall : ∀ x : BitVec 4, 7 ≤ x.toNat ∨
      ∃ i ∈ [Instr.nop, .init, .absorb 1, .finish, .loadh 0, .loadm 0, .compress], x = opOf i := by decide
  exact (hall (opField c)).imp_right fun ⟨i, _, hi⟩ => ⟨i, hi⟩

theorem candidate_of_seven_le {c : Word} (h : 7 ≤ (opField c).toNat) : candidate c = none := by
  obtain ⟨n, hn⟩ := Nat.exists_eq_add_of_le' h
  rw [candidate, hn]
  rfl

theorem candidate_of_opField {c : Word} {i : Instr} (h : opField c = opOf i) :
    candidate c = some (i.withOperandsOf c) := by
  rw [candidate, h]
  cases i <;> rfl

theorem decode_of_seven_le {c : Word} (h : 7 ≤ (opField c).toNat) : decode c = .illegal .opcode := by
  rw [decode, candidate_of_seven_le h]

/-- The decoder, when OP is that of `i`. -/
theorem decode_of_opField {c : Word} {i : Instr} (h : opField c = opOf i) :
    decode c = if i.row.selects c then .command (i.withOperandsOf c) else .illegal (illegalReason c) := by
  rw [decode, candidate_of_opField h]
  simp only [withOperandsOf_row]

theorem decode_of_selects {c : Word} {i : Instr} (h : i.row.selects c = true) :
    decode c = .command (i.withOperandsOf c) := by
  rw [decode_of_opField ((selects_iff i c).mp h).1, if_pos h]

/-- A word is the command whose row selects it and whose operands it holds. -/
theorem decode_eq_command_iff {c : Word} {i : Instr} :
    decode c = .command i ↔ i.row.selects c = true ∧ i.withOperandsOf c = i := by
  refine ⟨fun h => ?_, fun ⟨hsel, hargs⟩ => by rw [decode_of_selects hsel, hargs]⟩
  obtain hop | ⟨j, hj⟩ := opField_cases c
  · rw [decode_of_seven_le hop] at h
    cases h
  · rw [decode_of_opField hj] at h
    split at h
    · next hsel =>
      cases h
      exact ⟨by rwa [withOperandsOf_row], withOperandsOf_twice c j⟩
    · cases h

/-- A word whose OP is that of `i` is illegal exactly when `i`'s row does not select it. -/
theorem illegal_iff_of_opField {c : Word} {i : Instr} (h : opField c = opOf i) :
    (∃ why, decode c = .illegal why) ↔ ¬ i.row.selects c = true := by
  rw [decode_of_opField h]
  split
  · next hsel => simp [hsel]
  · next hsel => exact iff_of_true ⟨_, rfl⟩ hsel

/-- A word is illegal exactly when no row selects it (R56). -/
theorem illegal_iff (c : Word) : (∃ why, decode c = .illegal why) ↔ ∀ i : Instr, i.row.selects c = false := by
  constructor
  · rintro ⟨why, hwhy⟩ i
    by_contra hsel
    rw [Bool.not_eq_false] at hsel
    rw [decode_of_selects hsel] at hwhy
    cases hwhy
  · intro hnone
    obtain hop | ⟨i, hi⟩ := opField_cases c
    · exact ⟨_, decode_of_seven_le hop⟩
    · exact (illegal_iff_of_opField hi).mpr (by simp [hnone i])

end Sys2Proof
end

section
/-! PROOFS. The decoder and the encoder of the command word: they are inverse, and the illegal words are those of the list
(spec/30_encoding.md R52 to R58). -/

namespace Sys2Proof

open Sys2Proof.Machine Sys2Proof.Laws
open Sys2Proof.Laws.EncodingMatchesRow (opOf)

/-- A well-formed command's word is selected by its row. -/
theorem row_selects_encode {i : Instr} (h : i.wellFormed = true) : i.row.selects (encode i) = true := by
  cases i with
  | nop => exact (EncodingMatchesRow.nop h).1
  | init => exact (EncodingMatchesRow.init h).1
  | absorb nb => exact (EncodingMatchesRow.absorb nb h).1
  | finish => exact (EncodingMatchesRow.finish h).1
  | loadh i => exact (EncodingMatchesRow.loadh i h).1
  | loadm j => exact (EncodingMatchesRow.loadm j h).1
  | compress => exact (EncodingMatchesRow.compress h).1

/-- The encoder puts each operand in the bits that R53 reads it from. -/
theorem withOperandsOf_encode {i : Instr} (h : i.wellFormed = true) : i.withOperandsOf (encode i) = i := by
  cases i with
  | absorb nb =>
    simp only [Instr.wellFormed, decide_eq_true_eq] at h
    rw [Instr.withOperandsOf, encode, nbm1Field_toNat, commandWord_toNat (by omega) (by omega) (by omega)]
    congr 1
    omega
  | loadh i =>
    simp only [Instr.wellFormed, decide_eq_true_eq] at h
    rw [Instr.withOperandsOf, encode, BitVec.extractLsb'_toNat, Nat.shiftRight_eq_div_pow,
      commandWord_toNat (by omega) (by omega) (by omega)]
    congr 1
    omega
  | loadm j =>
    simp only [Instr.wellFormed, decide_eq_true_eq] at h
    rw [Instr.withOperandsOf, encode, idxField_toNat, commandWord_toNat (by omega) (by omega) (by omega)]
    congr 1
    omega
  | _ => rfl

/-- Settles O2 (R52 to R54, R58): the row of the command selects its encoding, which holds its operands. -/
theorem decodeOfEncodeIsTheCommand : Obligations.DecodeOfEncodeIsTheCommand := fun _ h =>
  decode_eq_command_iff.mpr ⟨row_selects_encode h, withOperandsOf_encode h⟩

/-- The fields of a word hold only operands that are well-formed (R53). -/
theorem withOperandsOf_wellFormed (c : Word) (i : Instr) : (i.withOperandsOf c).wellFormed = true := by
  cases i with
  | absorb nb =>
    have := (nbm1Field c).isLt
    simp only [Instr.withOperandsOf, Instr.wellFormed, decide_eq_true_eq]
    omega
  | loadh i => simpa only [Instr.withOperandsOf, Instr.wellFormed, decide_eq_true_eq] using (c.extractLsb' 4 3).isLt
  | loadm j => simpa only [Instr.withOperandsOf, Instr.wellFormed, decide_eq_true_eq] using (idxField c).isLt
  | _ => rfl

/-- The encoder writes the fields of a word that the command's row selects (R52, R54). -/
theorem encode_withOperandsOf {c : Word} {i : Instr} (h : i.row.selects c = true) :
    encode (i.withOperandsOf c) = c := by
  obtain ⟨hop, hrsv, hfit⟩ := (selects_iff i c).mp h
  refine Eq.trans ?_ (commandWord_fields hrsv)
  rw [hop]
  cases i with
  | absorb _ => rw [show idxField c = 0#4 from hfit]; rfl
  | loadh _ =>
    obtain ⟨hbit, hnbm1⟩ := hfit
    rw [hnbm1, ← loadh_index_eq_idxField hbit]
    rfl
  | loadm _ => rw [show nbm1Field c = 0#2 from hfit]; rfl
  | _ =>
    obtain ⟨hidx, hnbm1⟩ := hfit
    rw [hidx, hnbm1]
    rfl

/-- Settles O3 (R52 to R54): the row that selected the word fixes what its operands leave open. -/
theorem legalWordIsItsCommandsEncoding : Obligations.LegalWordIsItsCommandsEncoding := by
  intro c i h
  obtain ⟨hsel, hargs⟩ := decode_eq_command_iff.mp h
  exact ⟨hargs ▸ withOperandsOf_wellFormed c i, by rw [← encode_withOperandsOf hsel, hargs]⟩

/-- Two rows that select one word are both the row of the one command it decodes to (R54). -/
theorem row_eq_of_selects {c : Word} {i j : Instr} (hi : i.row.selects c = true) (hj : j.row.selects c = true) :
    i.row = j.row := by
  have hsame := (decode_of_selects hi).symm.trans (decode_of_selects hj)
  rw [← withOperandsOf_row c i, Decoded.command.inj hsame, withOperandsOf_row]

/-- Settles O4 (R54): the row says whether the word is the command, and the operands are what `withOperandsOf` reads. -/
theorem wordIsACommandExactlyWhenItsRowMatches : Obligations.WordIsACommandExactlyWhenItsRowMatches := by
  intro c
  have hmatch : ∀ i : Instr, decode c = .command i ↔ c &&& i.row.mask = i.row.pattern ∧ i.withOperandsOf c = i :=
    fun i => by rw [decode_eq_command_iff, Row.selects, beq_iff_eq]
  have hfixed : ∀ i : Instr, i.withOperandsOf c = i → (decode c = .command i ↔ c &&& i.row.mask = i.row.pattern) :=
    fun i hi => (hmatch i).trans (and_iff_left hi)
  refine ⟨hfixed .nop rfl, hfixed .init rfl, fun nb => ?_, hfixed .finish rfl, fun i => ?_, fun j => ?_,
    hfixed .compress rfl, fun i j => row_eq_of_selects⟩
  · rw [hmatch, Instr.withOperandsOf, Instr.absorb.injEq, eq_comm (b := nb)]
    rfl
  · rw [hmatch, Instr.withOperandsOf, Instr.loadh.injEq, eq_comm (b := i)]
    rfl
  · rw [hmatch, Instr.withOperandsOf, Instr.loadm.injEq, eq_comm (b := j)]
    rfl

/-- The list of R56, for a word whose OP is that of `i`: each bullet is one way for `i`'s row not to select it. -/
theorem not_selects_iff_listed {c : Word} {i : Instr} (h : opField c = opOf i) : ¬ i.row.selects c = true ↔
    (7 ≤ (opField c).toNat ∨ rsvField c ≠ 0#22 ∨
      (idxField c ≠ 0#4 ∧ (opField c = 0#4 ∨ opField c = 1#4 ∨ opField c = 2#4 ∨ opField c = 3#4 ∨ opField c = 6#4)) ∨
      (c.getLsbD 7 = true ∧ opField c = 4#4) ∨ (nbm1Field c ≠ 0#2 ∧ opField c ≠ 2#4)) := by
  rw [selects_iff]
  cases i <;> simp [h, opOf, Instr.operandBitsFit, not_and_or, -not_and]

/-- Settles O5 (R56): a word whose OP names no command is illegal; any other is judged by the row that its OP names. -/
theorem illegalWordsAreThoseOfTheList : Obligations.IllegalWordsAreThoseOfTheList := by
  refine fun c => ⟨illegal_iff c, ?_, fun ⟨why, hwhy⟩ s => by rw [dispatchWord, hwhy]⟩
  obtain hop | ⟨i, hi⟩ := opField_cases c
  · exact iff_of_true ⟨_, decode_of_seven_le hop⟩ (.inl hop)
  · rw [illegal_iff_of_opField hi, not_selects_iff_listed hi]

/-- Settles O1 (R54, R58). -/
theorem commandWordsDecode : Obligations.CommandWordsDecode := by
  unfold Obligations.CommandWordsDecode
  decide

end Sys2Proof
end

section
/-! PROOFS. The padded message (spec/40_padding.md R60, R61, R63). -/

namespace Sys2Proof.Machine

theorem pad_of_le {m : List Byte} (h : m.length ≤ maxMessage) : pad m = .next (padded m) := if_pos h

/-- A message that is too long is a fault (U1). -/
theorem pad_of_gt {m : List Byte} (h : maxMessage < m.length) : pad m = .fault .messageTooLong := if_neg (by omega)

/-- A message that `pad` answers is padded as R60 says. -/
theorem eq_padded_of_pad {m p : List Byte} (h : pad m = .next p) : p = padded m := by
  unfold pad at h
  split at h <;> cases h
  rfl

@[simp] theorem be64bytes_length (v : BitVec 64) : (be64bytes v).length = 8 := rfl

/-- The 8 bytes of the length field, first byte most significant, are its value (R63). -/
theorem be64bytes_value (v : BitVec 64) : (be64bytes v).foldl (fun acc b => 256 * acc + b.toNat) 0 = v.toNat := by
  have hv := v.isLt
  have hrange : List.range 8 = [0, 1, 2, 3, 4, 5, 6, 7] := rfl
  simp only [be64bytes, hrange, List.map, List.foldl, lenByte, BitVec.extractLsb'_toNat, Nat.shiftRight_eq_div_pow]
  omega

theorem padZeros_lt (L : Nat) : padZeros L < 64 := by
  unfold padZeros
  omega

/-- The zeros fill up the last block (R60). -/
theorem padZeros_fills (L : Nat) : L + 1 + padZeros L + 8 = 64 * ((L + 8) / 64 + 1) := by
  unfold padZeros
  omega

theorem padded_length (m : List Byte) : (padded m).length = 64 * ((m.length + 8) / 64 + 1) := by
  have hfill := padZeros_fills m.length
  simp only [padded, List.length_append, List.length_replicate, List.length_singleton, be64bytes_length]
  omega

/-- Settles O44 (R61): the length is that of `padded`, whose zeros are fewer than a block. -/
theorem paddedLengthIsTheSmallestMultiple : Obligations.PaddedLengthIsTheSmallestMultiple := by
  intro m p h
  rw [eq_padded_of_pad h, padded_length]
  refine ⟨rfl, by omega, by omega, fun n hn hle => by omega⟩

/-- Settles O43 (R60, R63; U1, log 19): `padded` is the layout, and the length field does not wrap below 2^61 bytes. -/
theorem paddedMessageLayout : Obligations.PaddedMessageLayout := by
  refine ⟨fun m hm => ?_, fun m hm => ?_⟩
  · have hfill := padZeros_fills m.length
    refine ⟨padZeros m.length, be64bytes (BitVec.ofNat 64 (8 * m.length)), ?_, padZeros_lt _, by omega, rfl, ?_⟩
    · rw [pad_of_le hm, padded]
      simp
    · rw [be64bytes_value, BitVec.toNat_ofNat]
      omega
  · have hpad : pad m = .fault .messageTooLong := pad_of_gt hm
    exact ⟨hpad, by simp only [messageHash, finalState, andThen, hpad]⟩

end Sys2Proof.Machine
end

section
/-! SUPPORT. A compression computes `compressBlock` of H and the block in BUF (spec/42_compression.md R85 to R90): where
the sequencer stands after each micro-step, then what T and W hold there. -/

namespace Sys2Proof.Machine

/-! ## The position after each micro-step (R89) -/

/-- After LOAD and `k` EXPANDs comes EXPAND 16 + k. -/
theorem seq_after_expands (s : State) {k : Nat} (h : 16 + k < 64) :
    (microSteps (1 + k) (startCompression s)).seq = ⟨.expand, ⟨16 + k, h⟩⟩ := by
  rw [microSteps_seq, nextSeqs_add]
  exact nextSeqs_expand _ k 16 (by decide) h

/-- After LOAD, the 48 EXPANDs and `k` ROUNDs comes ROUND k. -/
theorem seq_after_rounds (s : State) {k : Nat} (h : k < 64) :
    (microSteps (49 + k) (startCompression s)).seq = ⟨.round, ⟨k, h⟩⟩ := by
  have hlast : (microSteps 48 (startCompression s)).seq = ⟨.expand, ⟨63, by decide⟩⟩ :=
    seq_after_expands s (k := 47) (by decide)
  have hfirst : (microSteps 49 (startCompression s)).seq = ⟨.round, 0⟩ := by
    rw [microSteps_succ, microStep_seq, hlast]
    rfl
  rw [microSteps_add, microSteps_seq, hfirst]
  simpa using nextSeqs_round _ k 0 (by omega)

/-- After the last ROUND comes FOLD. -/
theorem phase_after_last_round (s : State) : (microSteps 113 (startCompression s)).seq.phase = .fold := by
  have hlast : (microSteps 112 (startCompression s)).seq = ⟨.round, ⟨63, by decide⟩⟩ :=
    seq_after_rounds s (k := 63) (by decide)
  rw [microSteps_succ, microStep_seq, hlast]
  rfl

/-! ## The micro-step at each position -/

theorem microStep_at_load {s : State} (h : s.seq.phase = .load) : microStep s = loadStep s := by
  simp only [microStep, h]

theorem microStep_at_expand {s : State} {t : Fin 64} (h : s.seq = ⟨.expand, t⟩) : microStep s = expandStep t s := by
  simp only [microStep, h]

theorem microStep_at_round {s : State} {t : Fin 64} (h : s.seq = ⟨.round, t⟩) : microStep s = roundStep t s := by
  simp only [microStep, h]

theorem microStep_at_fold {s : State} (h : s.seq.phase = .fold) : microStep s = foldStep s := by
  simp only [microStep, h]

/-! ## The schedule (R86) -/

/-- The schedule is extended at its end. -/
theorem extendBy_succ (n : Nat) (ws : List Word) : extendBy (n + 1) ws = extendSchedule (extendBy n ws) := by
  induction n generalizing ws with
  | zero => rfl
  | succ n ih => exact ih (extendSchedule ws)

theorem extendBy_length (n : Nat) (ws : List Word) : (extendBy n ws).length = ws.length + n := by
  induction n generalizing ws with
  | zero => rfl
  | succ n ih =>
    rw [extendBy, ih, extendSchedule, List.length_append, List.length_singleton]
    omega

/-- EXPAND t writes the word by which the schedule of the words below t is extended. -/
theorem expandStep_w_take {s : State} {t : Nat} (ht : t < 64) (h16 : 16 ≤ t) :
    (expandStep ⟨t, ht⟩ s).w.toList.take (t + 1) = extendSchedule (s.w.toList.take t) := by
  have hword : ∀ k, 1 ≤ k → (s.w.toList.take t).getD (t - k) 0#32 = s.w[t - k] := fun k hk => by
    rw [List.getD_eq_getElem _ _ (by simp; omega), List.getElem_take, Vector.getElem_toList]
  have hlength : (s.w.toList.take t).length = t := by simp; omega
  rw [extendSchedule, hlength, hword 2 (by decide), hword 7 (by decide), hword 15 (by decide), hword 16 (by decide)]
  simp [expandStep, h16, List.take_add_one, ht, Vector.toList_set, List.take_set_of_le]

/-- After LOAD and `k` EXPANDs, W begins with the block extended by `k` words, T still holds H, and H is unchanged. -/
theorem schedule_after_expands (s : State) {k : Nat} (h : k ≤ 48) :
    (microSteps (1 + k) (startCompression s)).w.toList.take (16 + k) = extendBy k (blockWords s.buf).toList ∧
    (microSteps (1 + k) (startCompression s)).t = s.h ∧ (microSteps (1 + k) (startCompression s)).h = s.h := by
  induction k with
  | zero =>
    rw [Nat.add_zero, Nat.add_zero, microSteps_succ, microSteps, microStep_at_load (by simp), extendBy]
    refine ⟨?_, rfl, rfl⟩
    refine List.ext_getElem (by simp) fun i hi _ => ?_
    have hi : i < 16 := lt_of_lt_of_le hi (List.length_take_le _ _)
    simp [loadStep, hi]
  | succ k ih =>
    obtain ⟨hw, ht, hh⟩ := ih (by omega)
    rw [← Nat.add_assoc, ← Nat.add_assoc, microSteps_succ, microStep_at_expand (seq_after_expands s (by omega)),
      extendBy_succ, ← hw]
    exact ⟨expandStep_w_take _ (by omega), by simp [expandStep, ht], by simp [expandStep, hh]⟩

/-- After the last EXPAND, W holds the schedule of the block. -/
theorem schedule_after_last_expand (s : State) :
    (microSteps 49 (startCompression s)).w.toList = schedule (blockWords s.buf) ∧
    (microSteps 49 (startCompression s)).t = s.h ∧ (microSteps 49 (startCompression s)).h = s.h := by
  obtain ⟨hw, ht, hh⟩ := schedule_after_expands s (k := 48) (by decide)
  refine ⟨?_, ht, hh⟩
  rw [schedule, ← hw, List.take_of_length_le (by simp)]

/-! ## The rounds (R87) and FOLD (R88) -/

/-- One more round at the end. -/
theorem runRounds_concat (t : Vector Word 8) (kws : List (Word × Word)) (kw : Word × Word) :
    runRounds t (kws ++ [kw]) = mixRound (runRounds t kws) kw.1 kw.2 := by
  simp [runRounds]

/-- The rounds so far, and the next. -/
theorem runRounds_zip_take_succ (t : Vector Word 8) (w : Vector Word 64) {k : Nat} (h : k < 64) :
    runRounds t ((K.toList.zip w.toList).take (k + 1)) =
      mixRound (runRounds t ((K.toList.zip w.toList).take k)) K[k] w[k] := by
  rw [List.take_succ_eq_append_getElem (by simpa using h), runRounds_concat, List.getElem_zip, Vector.getElem_toList,
    Vector.getElem_toList]

/-- After `k` ROUNDs, T holds the first `k` rounds over the schedule, and H is unchanged. -/
theorem rounds_after (s : State) {k : Nat} (h : k ≤ 64) :
    (microSteps (49 + k) (startCompression s)).w.toList = schedule (blockWords s.buf) ∧
    (microSteps (49 + k) (startCompression s)).t =
      runRounds s.h ((K.toList.zip (schedule (blockWords s.buf))).take k) ∧
    (microSteps (49 + k) (startCompression s)).h = s.h := by
  induction k with
  | zero => simpa [runRounds] using schedule_after_last_expand s
  | succ k ih =>
    obtain ⟨hw, ht, hh⟩ := ih (by omega)
    rw [← Nat.add_assoc, microSteps_succ, microStep_at_round (seq_after_rounds s (by omega))]
    refine ⟨hw, ?_, hh⟩
    rw [← hw] at ht ⊢
    rw [runRounds_zip_take_succ _ _ (by omega), ← ht]
    rfl

/-- R90: a compression leaves `compressBlock` of H and the block of BUF in H. -/
@[simp] theorem compression_h (s : State) : (compression s).h = compressBlock s.h (blockWords s.buf) := by
  obtain ⟨_, ht, hh⟩ :
      _ ∧ (microSteps 113 (startCompression s)).t = _ ∧ (microSteps 113 (startCompression s)).h = s.h :=
    rounds_after s (k := 64) le_rfl
  rw [List.take_of_length_le (by simp)] at ht
  have hfold : compression s = foldStep (microSteps 113 (startCompression s)) := by
    rw [compression, show compressionSteps = 113 + 1 from rfl, microSteps_succ,
      microStep_at_fold (phase_after_last_round s)]
  simp only [hfold, foldStep, discardScratch_fields, ht, hh, compressBlock]

/-- R90, with the frame: besides the scratch a compression changes H alone. -/
theorem compression_withoutScratch (s : State) : (compression s).withoutScratch =
    ({ s with h := compressBlock s.h (blockWords s.buf), seq := ⟨.idle, 0⟩ } : State).withoutScratch := by
  have hseq : (compression s).seq.withoutFreeCounter = ⟨.idle, 0⟩ := by simp [Seq.withoutFreeCounter]
  refine withoutScratch_eq_iff.mpr ?_
  simp only [compression_h, compression_frame, hseq, and_true, true_and]
  rfl

end Sys2Proof.Machine
end

section
/-! PROOFS. FINISH (spec/40_padding.md R66, spec/44_commands.md R106). -/

namespace Sys2Proof.Machine

/-- FINISH while DONE records SEQUENCE alone (R114). -/
theorem exec_finish_done {s : State} (he : s.err = false) (hd : s.done = true) :
    exec .finish s = .next { s with err := true, ecode := 2#4 } := by
  have hcheck : finishError s = some .sequence := by simp [finishError, hd]
  rw [exec, execFinish, command_raises he hcheck, raiseError, he]
  rfl

/-- FINISH of an open message has its effect (R106). -/
theorem exec_finish_open {s : State} (he : s.err = false) (hd : s.done = false) :
    exec .finish s = .next (closeMessage (padtail s)) := by
  have hcheck : finishError s = none := by simp [finishError, hd]
  rw [exec, execFinish, command_runs he hcheck]

/-- PADTAIL's first writes: the bytes absorbed, the terminator, then zeros up to the length field where it fits in this
block, else to the end (R66). -/
theorem padFirst_buf_getElem (s : State) (n : Nat) (hn : n < 64) : (padFirst s).buf[n] =
    if n < s.bcnt.toNat then s.buf[n] else if n = s.bcnt.toNat then 0x80#8
    else if n < 56 ∨ 56 ≤ s.bcnt.toNat then 0#8 else s.buf[n] := by
  simp only [padFirst_fields, putTerminator_fields, zeroBytes_getElem, Vector.getElem_set]
  grind

/-- The padded block of the one-block form: `b = 55` writes no zero bytes (R66). -/
theorem buf_of_one_block {s : State} (hb : s.bcnt.toNat ≤ 55) : (writeLength (padFirst s)).buf = Vector.ofFn fun n =>
    if n.val < s.bcnt.toNat then s.buf[n] else if n.val = s.bcnt.toNat then 0x80#8 else if n.val < 56 then 0#8
    else lenByte s.len (n.val - 56) := by
  have hlen : (padFirst s).len = s.len := by simp
  ext n hn : 1
  simp only [writeLength_fields, putLength_getElem, hlen, padFirst_buf_getElem, Vector.getElem_ofFn]
  grind

/-- The terminator block of the two-block form (R66). -/
theorem buf_of_first_block {s : State} (hb : ¬ s.bcnt.toNat ≤ 55) : (padFirst s).buf = Vector.ofFn fun n =>
    if n.val < s.bcnt.toNat then s.buf[n] else if n.val = s.bcnt.toNat then 0x80#8 else 0#8 := by
  ext n hn : 1
  simp only [padFirst_buf_getElem, Vector.getElem_ofFn]
  grind

/-- The length block of the two-block form keeps nothing of what BUF held (R66). -/
theorem buf_of_length_block (s : State) : (writeLength (clearForLength s)).buf = Vector.ofFn fun n =>
    if n.val < 56 then 0#8 else lenByte s.len (n.val - 56) := by
  ext n hn : 1
  simp only [writeLength_fields, putLength_getElem, clearForLength_fields, zeroBytes_getElem, Vector.getElem_ofFn]
  grind

/-- FINISH after the writes of its last block: one more compression, and the message is closed (R106). -/
theorem closeMessage_compression (u : State) : (closeMessage (compression u)).withoutScratch =
    ({ u with h := compressBlock u.h (blockWords u.buf), bcnt := 0#6, done := true, seq := ⟨.idle, 0⟩ } :
      State).withoutScratch :=
  closeMessage_blind (compression_withoutScratch u)

/-- Settles O29 (R66, R106): each form is its blocks compressed in order. -/
theorem finishPadsAndCompresses : Obligations.FinishPadsAndCompresses := by
  refine fun s he => ⟨exec_finish_done he, fun hd => ⟨_, exec_finish_open he hd, ?_⟩⟩
  split
  · next hb =>
    have hpad : padtail s = compression (writeLength (padFirst s)) := if_pos hb
    have hwrite : writeLength (padFirst s) = { s with buf := (writeLength (padFirst s)).buf } := by
      simp only [writeLength, padFirst, putTerminator]
    rw [hpad, closeMessage_compression, hwrite, buf_of_one_block hb]
    rfl
  · next hb =>
    have hpad : padtail s = compression (writeLength (clearForLength (compression (padFirst s)))) := if_neg hb
    have hlen : (compression (padFirst s)).len = s.len := by simp
    have hh : (writeLength (clearForLength (compression (padFirst s)))).h = (compression (padFirst s)).h := by simp
    rw [hpad, closeMessage_compression, hh, buf_of_length_block, compression_h, buf_of_first_block hb, hlen]
    exact withoutScratch_eq_iff.mpr (by simp [lenByte])

end Sys2Proof.Machine
end

section
/-! SUPPORT. Byte strings as words and blocks of words: `wordGroups` (spec/41_word_parsing.md R68, R71) and
`compressBlocks` (spec/42_compression.md R91). -/

namespace Sys2Proof.Machine

/-- A byte string holds a whole word, or it is shorter than one. -/
theorem word_or_short (x : List Byte) : (∃ b0 b1 b2 b3 rest, x = b0 :: b1 :: b2 :: b3 :: rest) ∨ x.length < 4 := by
  obtain _ | ⟨b0, _ | ⟨b1, _ | ⟨b2, _ | ⟨b3, rest⟩⟩⟩⟩ := x
  case cons.cons.cons.cons => exact .inl ⟨b0, b1, b2, b3, rest, rfl⟩
  all_goals exact .inr (by simp)

theorem wordGroups_of_short {x : List Byte} (h : x.length < 4) : wordGroups x = [] := by
  unfold wordGroups
  split
  · simp at h
    omega
  · rfl

theorem wordGroups_length (x : List Byte) : (wordGroups x).length = x.length / 4 := by
  obtain ⟨b0, b1, b2, b3, rest, rfl⟩ | hshort := word_or_short x
  · rw [wordGroups, List.length_cons, wordGroups_length rest]
    simp only [List.length_cons]
    omega
  · rw [wordGroups_of_short hshort, List.length_nil, Nat.div_eq_of_lt hshort]
termination_by x.length

/-- The words of a byte string stay where they are when bytes follow. -/
theorem wordGroups_prefix_append (x y : List Byte) : wordGroups x <+: wordGroups (x ++ y) := by
  fun_induction wordGroups x with
  | case1 b0 b1 b2 b3 rest ih => exact List.cons_prefix_cons.mpr ⟨rfl, ih⟩
  | case2 => exact List.nil_prefix

/-- Dropping whole words drops their bytes. -/
theorem wordGroups_drop (n : Nat) (x : List Byte) : (wordGroups x).drop n = wordGroups (x.drop (4 * n)) := by
  induction n generalizing x with
  | zero => rfl
  | succ n ih =>
    obtain ⟨b0, b1, b2, b3, rest, rfl⟩ | hshort := word_or_short x
    · exact ih rest
    · rw [wordGroups_of_short hshort, wordGroups_of_short (by simp; omega), List.drop_nil]

/-- Word `k` of a byte string is `be32` of its four bytes (R68). -/
theorem wordGroups_getElem? {x : List Byte} {k : Nat} (h : 4 * k + 3 < x.length) :
    (wordGroups x)[k]? = some (be32 x[4 * k] x[4 * k + 1] x[4 * k + 2] x[4 * k + 3]) := by
  rw [← List.head?_drop, wordGroups_drop, List.drop_eq_getElem_cons (by omega), List.drop_eq_getElem_cons (by omega),
    List.drop_eq_getElem_cons (by omega), List.drop_eq_getElem_cons h]
  rfl

/-- The words of BUF (R71). -/
theorem wordGroups_buf (buf : Vector Byte 64) : wordGroups buf.toList = (blockWords buf).toList := by
  apply List.ext_getElem?
  intro k
  by_cases hk : k < 16
  · rw [wordGroups_getElem? (by simp; omega), List.getElem?_eq_getElem (by simpa using hk)]
    simp [blockWord]
  · rw [List.getElem?_eq_none (by simp [wordGroups_length]; omega), List.getElem?_eq_none (by simp; omega)]

theorem firstBlock_toList (b : Vector Word 16) : firstBlock b.toList = b := by
  ext j hj : 1
  simp [firstBlock]

/-- One more block at the end. -/
theorem compressBlocks_succ (n : Nat) (h : Vector Word 8) (ws : List Word) :
    compressBlocks (n + 1) h ws = compressBlock (compressBlocks n h ws) (firstBlock (ws.drop (16 * n))) := by
  induction n generalizing h ws with
  | zero => rfl
  | succ n ih =>
    rw [compressBlocks, ih, List.drop_drop, compressBlocks]
    congr 3
    omega

/-- The first block of a list is that of any list it begins. -/
theorem firstBlock_of_prefix {ws vs : List Word} (hp : ws <+: vs) (hlen : 16 ≤ ws.length) :
    firstBlock vs = firstBlock ws := by
  obtain ⟨us, rfl⟩ := hp
  ext j hj : 1
  simp [firstBlock, List.getElem?_append, show j < ws.length by omega]

/-- `n` blocks are compressed by their own words alone, whatever follows. -/
theorem compressBlocks_of_prefix {n : Nat} {h : Vector Word 8} {ws vs : List Word} (hp : ws <+: vs)
    (hlen : 16 * n ≤ ws.length) : compressBlocks n h vs = compressBlocks n h ws := by
  induction n generalizing h ws vs with
  | zero => rfl
  | succ n ih =>
    rw [compressBlocks, compressBlocks, firstBlock_of_prefix hp (by omega), ih (hp.drop 16) (by simp; omega)]

end Sys2Proof.Machine
end

section
/-! PROOFS. Absorbing a message (spec/40_padding.md R67, spec/43_hash.md R98, R99): what H, BUF, BCNT and LEN hold after
any prefix of it. -/

namespace Sys2Proof.Machine

/-! ## The completed blocks of a message, and the open one -/

/-- The chaining value of the completed blocks of a message, from IV (R99). -/
def chainingValue (m : List Byte) : Vector Word 8 := compressBlocks (m.length / 64) IV (wordGroups m)

/-- The bytes of a message after its last completed block (R99). -/
def openBlock (m : List Byte) : List Byte := m.drop (64 * (m.length / 64))

/-- A byte that leaves the block open joins its bytes, and the chaining value stays. -/
theorem append_byte_open {m : List Byte} (h : m.length % 64 ≠ 63) (b : Byte) :
    chainingValue (m ++ [b]) = chainingValue m ∧ openBlock (m ++ [b]) = openBlock m ++ [b] := by
  have hblocks : (m ++ [b]).length / 64 = m.length / 64 := by simp; omega
  constructor
  · rw [chainingValue, hblocks, compressBlocks_of_prefix (wordGroups_prefix_append m [b])]
    · rfl
    · rw [wordGroups_length]
      omega
  · rw [openBlock, hblocks, List.drop_append_of_le_length (by omega), openBlock]

/-- A byte that fills the block has it compressed, and the next block is empty. -/
theorem append_byte_full {m : List Byte} (h : m.length % 64 = 63) {b : Byte} {block : Vector Byte 64}
    (hblock : block.toList = openBlock m ++ [b]) :
    chainingValue (m ++ [b]) = compressBlock (chainingValue m) (blockWords block) ∧ openBlock (m ++ [b]) = [] := by
  have hblocks : (m ++ [b]).length / 64 = m.length / 64 + 1 := by simp; omega
  constructor
  · have hwords : (wordGroups (m ++ [b])).drop (16 * (m.length / 64)) = (blockWords block).toList := by
      rw [wordGroups_drop, ← wordGroups_buf, hblock, openBlock, List.drop_append_of_le_length (by omega)]
      congr 3
      omega
    rw [chainingValue, hblocks, compressBlocks_succ, hwords, firstBlock_toList,
      compressBlocks_of_prefix (wordGroups_prefix_append m [b])]
    · rfl
    · rw [wordGroups_length]
      omega
  · rw [openBlock, hblocks, List.drop_eq_nil_iff]
    simp
    omega

/-! ## One byte -/

/-- The engine has absorbed the bytes `m` and no more since the message began, without an error (R67, R99). -/
structure Absorbed (m : List Byte) (s : State) : Prop where
  ready : s.Ready
  err : s.err = false
  done : s.done = false
  len : s.len.toNat = 8 * m.length
  bcnt : s.bcnt.toNat = m.length % 64
  h : s.h = chainingValue m
  buf : s.buf.toList.take s.bcnt.toNat = openBlock m

/-- A stored byte follows the bytes of the open block. -/
theorem putByte_take (b : Byte) (s : State) :
    (putByte b s).buf.toList.take (s.bcnt.toNat + 1) = s.buf.toList.take s.bcnt.toNat ++ [b] := by
  have := s.bcnt.isLt
  simp [List.take_add_one, Vector.toList_set, List.take_set_of_le, this]

/-- The byte that fills BUF has it compressed (R105). -/
theorem absorbByte_of_full {k : Nat} {s : State} (h : s.bcnt.toNat = 63) :
    (absorbByte k s).h = compressBlock s.h (blockWords (putByte (lane s.din k) s).buf) ∧
    (absorbByte k s).bcnt = 0#6 := by
  rw [absorbByte, if_pos (BitVec.eq_of_toNat_eq h)]
  simp

/-- Any other byte is stored and counted (R105). -/
theorem absorbByte_of_open {k : Nat} {s : State} (h : s.bcnt.toNat ≠ 63) :
    (absorbByte k s).h = s.h ∧ (absorbByte k s).buf = (putByte (lane s.din k) s).buf ∧
    (absorbByte k s).bcnt.toNat = s.bcnt.toNat + 1 := by
  have hlt := s.bcnt.isLt
  have hcount : (absorbByte k s).bcnt.toNat = (s.bcnt.toNat + 1) % 64 := absorbBytes_bcnt 1 k s
  refine ⟨?_, ?_, by omega⟩ <;>
    rw [absorbByte, if_neg fun hfull => h (congrArg BitVec.toNat hfull)] <;> simp

/-- H and BUF follow the message byte by byte (R67, R99). -/
theorem absorbByte_follows {m : List Byte} {s : State} (hs : Absorbed m s) (k : Nat) :
    (absorbByte k s).h = chainingValue (m ++ [lane s.din k]) ∧
    (absorbByte k s).buf.toList.take (absorbByte k s).bcnt.toNat = openBlock (m ++ [lane s.din k]) := by
  have hput := putByte_take (lane s.din k) s
  rw [hs.buf] at hput
  by_cases hfull : s.bcnt.toNat = 63
  · obtain ⟨hh, hbcnt⟩ := absorbByte_of_full (k := k) hfull
    rw [hfull, List.take_of_length_le (by simp)] at hput
    obtain ⟨hvalue, hopen⟩ := append_byte_full (hs.bcnt.symm.trans hfull) hput
    exact ⟨by rw [hh, hvalue, hs.h], by rw [hbcnt, hopen]; rfl⟩
  · obtain ⟨hh, hbuf, hbcnt⟩ := absorbByte_of_open (k := k) hfull
    obtain ⟨hvalue, hopen⟩ := append_byte_open (fun h => hfull (hs.bcnt.trans h)) (lane s.din k)
    exact ⟨by rw [hh, hvalue, hs.h], by rw [hbuf, hbcnt, hput, hopen]⟩

/-- One turn of ABSORB's loop (R105). -/
theorem absorbByte_absorbed {m : List Byte} {s : State} (hs : Absorbed m s) (hlen : m.length + 1 ≤ maxMessage)
    (k : Nat) : Absorbed (m ++ [lane s.din k]) (absorbByte k s) := by
  have hfit : s.len.toNat + 8 * 1 < 2 ^ 64 := by
    rw [hs.len]
    unfold maxMessage at hlen
    omega
  have hlenNext : (absorbByte k s).len.toNat = s.len.toNat + 8 * 1 := absorbBytes_len k hfit
  have hbcntNext : (absorbByte k s).bcnt.toNat = (s.bcnt.toNat + 1) % 64 := absorbBytes_bcnt 1 k s
  obtain ⟨hh, hbuf⟩ := absorbByte_follows hs k
  obtain ⟨hphase, hline⟩ := hs.ready
  refine ⟨⟨absorbByte_seq hphase, by simp [hline]⟩, by simp [hs.err], by simp [hs.done], ?_, ?_, hh, hbuf⟩
  · rw [hlenNext, hs.len, List.length_append, List.length_singleton, Nat.mul_add]
  · rw [hbcntNext, hs.bcnt, List.length_append, List.length_singleton, Nat.mod_add_mod]

/-- ABSORB's loop over the lanes from `k` on (R105). -/
theorem absorbBytes_absorbed {n : Nat} {m : List Byte} {s : State} (hs : Absorbed m s)
    (hlen : m.length + n ≤ maxMessage) (k : Nat) :
    Absorbed (m ++ (List.range' k n).map (lane s.din)) (absorbBytes n k s) := by
  induction n generalizing m s k with
  | zero => simpa [absorbBytes] using hs
  | succ n ih =>
    have hbyte := absorbByte_absorbed hs (by omega) k
    have hrest := ih hbyte (by simp; omega) (k + 1)
    have hdin : (absorbByte k s).din = s.din := by simp
    rw [hdin, List.append_assoc] at hrest
    exact hrest

/-! ## One chunk -/

/-- ABSORB that no check stops has its effect (R105). -/
theorem exec_absorb_open {nb : Nat} {s : State} (hnb : 1 ≤ nb ∧ nb ≤ 4) (he : s.err = false) (hd : s.done = false)
    (hlen : s.len.toNat + 8 * nb < 2 ^ 64) : exec (.absorb nb) s = .next (absorbBytes nb 0 s) := by
  have hcheck : absorbError nb s = none := by
    rw [absorbError, hd, if_neg Bool.false_ne_true, if_neg (by omega)]
  rw [exec, execAbsorb, decide_eq_true hnb, command_runs he hcheck]

/-- The host's write of a well-formed command's word to a ready engine runs the command (R50, R102). -/
theorem step_commandEvent {s : State} {i : Instr} {es : List HostEvent} (hs : s.Ready) (hi : i.wellFormed = true)
    (hp : s.pending = commandEvent (encode i) :: es) : step s = exec i (s.setPending es) := by
  rw [step_write hs (r := .cmd) rfl (by decide) hp, regWrite, dispatchWord, decodeOfEncodeIsTheCommand i hi]

/-- What the engine has absorbed does not depend on DIN or on the events that wait. -/
theorem Absorbed.with_din_pending {m : List Byte} {s : State} (hs : Absorbed m s) (v : Word) (es : List HostEvent) :
    Absorbed m { s.setPending es with din := v } :=
  ⟨hs.ready, hs.err, hs.done, hs.len, hs.bcnt, hs.h, hs.buf⟩

/-- A host write to DIN absorbs nothing (R26, R100). -/
theorem step_din_absorbed {m : List Byte} {s : State} {v : Word} {es : List HostEvent} (hs : Absorbed m s)
    (hp : s.pending = writeEvent 0x04 v :: es) : ∃ u, step s = .next u ∧ Absorbed m u ∧ u.din = v ∧ u.pending = es :=
  ⟨_, step_write hs.ready (r := .din) rfl (by decide) hp, hs.with_din_pending v es, rfl, rfl⟩

/-- The host's ABSORB appends the first lanes of DIN (R105). -/
theorem step_absorb_absorbed {m : List Byte} {s : State} {nb : Nat} {es : List HostEvent} (hs : Absorbed m s)
    (hnb : 1 ≤ nb ∧ nb ≤ 4) (hlen : m.length + nb ≤ maxMessage)
    (hp : s.pending = commandEvent (encode (.absorb nb)) :: es) :
    ∃ t, step s = .next t ∧ Absorbed (m ++ (List.range nb).map (lane s.din)) t ∧ t.pending = es := by
  have hwf : (Instr.absorb nb).wellFormed = true := decide_eq_true hnb
  have hfit : s.len.toNat + 8 * nb < 2 ^ 64 := by
    rw [hs.len]
    unfold maxMessage at hlen
    omega
  have hrest : Absorbed m (s.setPending es) := hs.with_din_pending s.din es
  refine ⟨_, (step_commandEvent hs.ready hwf hp).trans (exec_absorb_open hnb hs.err hs.done hfit), ?_, by simp⟩
  rw [List.range_eq_range']
  exact absorbBytes_absorbed hrest hlen 0

/-- The two host writes of a chunk absorb its bytes (R98). -/
theorem runSteps_chunk {m : List Byte} {s : State} {c : Chunk} {es : List HostEvent} (hs : Absorbed m s) (hc : c.ok)
    (hlen : (m ++ c.bytes).length ≤ maxMessage) (hp : s.pending = c.events ++ es) :
    ∃ t, runSteps c.events.length s = .next t ∧ Absorbed (m ++ c.bytes) t ∧ t.pending = es := by
  obtain ⟨u, hdin, hu, hword, hpu⟩ := step_din_absorbed hs hp
  obtain ⟨t, habsorb, ht, hpt⟩ := step_absorb_absorbed hu hc (by simpa [Chunk.bytes] using hlen) hpu
  rw [hword] at ht
  exact ⟨t, (runSteps_succ hdin).trans (runSteps_succ habsorb), ht, hpt⟩

/-! ## A message cut into chunks -/

/-- Absorbing chunk after chunk, with other events waiting behind them (R98). -/
theorem runSteps_chunks {cs : List Chunk} {m : List Byte} {s : State} {es : List HostEvent} (hs : Absorbed m s)
    (hcs : ∀ c ∈ cs, c.ok) (hlen : (m ++ cs.flatMap Chunk.bytes).length ≤ maxMessage)
    (hp : s.pending = cs.flatMap Chunk.events ++ es) :
    ∃ t, runSteps (cs.flatMap Chunk.events).length s = .next t ∧ Absorbed (m ++ cs.flatMap Chunk.bytes) t ∧
      t.pending = es := by
  induction cs generalizing m s with
  | nil => exact ⟨s, rfl, by simpa using hs, hp⟩
  | cons c cs ih =>
    obtain ⟨hc, hcs⟩ := List.forall_mem_cons.mp hcs
    rw [List.flatMap_cons, ← List.append_assoc] at hlen
    rw [List.flatMap_cons, List.append_assoc] at hp
    have hfirst : (m ++ c.bytes).length ≤ maxMessage := by
      rw [List.length_append] at hlen
      omega
    obtain ⟨u, hrun, hu, hpu⟩ := runSteps_chunk hs hc hfirst hp
    obtain ⟨t, hrest, ht, hpt⟩ := ih hu hcs hlen hpu
    rw [List.flatMap_cons, List.flatMap_cons, List.length_append, ← List.append_assoc]
    exact ⟨t, (runSteps_add hrun).trans hrest, ht, hpt⟩

/-- After reset, whatever T and W hold, nothing has been absorbed (R35). -/
theorem absorbed_nil_of_reset {s : State} {es : List HostEvent}
    (h : s.withoutScratch = (State.reset.setPending es).withoutScratch) : Absorbed [] s ∧ s.pending = es := by
  obtain ⟨hh, hbuf, hbcnt, hlen, _, hdone, herr, _, hseq, hpending, _, hline⟩ := withoutScratch_eq_iff.mp h
  have hphase : s.seq.phase = .idle := phase_eq_of_withoutFreeCounter_eq hseq
  exact ⟨⟨⟨hphase, hline⟩, herr, hdone, by rw [hlen]; rfl, by rw [hbcnt]; rfl, hh, by rw [hbcnt]; rfl⟩, hpending⟩

/-- Settles O50 (R67, R99): from reset, chunk by chunk; `Absorbed` says what the engine then holds. -/
theorem absorbedPrefixIsTheChainingValue : Obligations.AbsorbedPrefixIsTheChainingValue := by
  intro cs s hcs hlen hreset
  obtain ⟨hs, hp⟩ := absorbed_nil_of_reset hreset
  obtain ⟨t, hrun, ht, hpt⟩ := runSteps_chunks (es := []) hs hcs hlen (by rw [hp, List.append_nil])
  exact ⟨t, hrun, ht.err, ht.done, ht.len, ht.bcnt, ht.h, ht.buf, hpt⟩

end Sys2Proof.Machine
end

section
/-! PROOFS. Words parsed from bytes and serialised back (spec/41_word_parsing.md R68 to R72). -/

namespace Sys2Proof.Machine

/-! ## Parsing (R68) -/

/-- A byte string that ends inside a word has no meaning as words. -/
theorem toWords_of_partial_word {x : List Byte} (h : x.length % 4 ≠ 0) : toWords x = .fault .invalidLength := if_pos h

/-- A byte string of whole words is its groups of 4 bytes. -/
theorem toWords_of_whole_words {x : List Byte} (h : x.length % 4 = 0) : toWords x = .next (wordGroups x) :=
  if_neg (not_not_intro h)

/-- Word `k` of a byte string by its bytes, where it has a word `k`. -/
theorem wordGroups_getD {x : List Byte} {k : Nat} (h : k < (wordGroups x).length) :
    (wordGroups x).getD k 0#32 =
      be32 (x.getD (4 * k) 0#8) (x.getD (4 * k + 1) 0#8) (x.getD (4 * k + 2) 0#8) (x.getD (4 * k + 3) 0#8) := by
  have hbytes : 4 * k + 3 < x.length := by
    rw [wordGroups_length] at h
    omega
  rw [List.getD_eq_getElem?_getD, wordGroups_getElem? hbytes, Option.getD_some, List.getD_eq_getElem _ _ (by omega),
    List.getD_eq_getElem _ _ (by omega), List.getD_eq_getElem _ _ (by omega), List.getD_eq_getElem _ _ hbytes]

/-- Settles O45 (R68): a string of whole words is parsed as `wordGroups`, and BUF, 64 bytes, is one. -/
theorem toWordsGroupsBytesOrFaults : Obligations.ToWordsGroupsBytesOrFaults := by
  refine ⟨fun x => toWords_of_partial_word, fun x h => ?_, fun s => ?_⟩
  · exact ⟨wordGroups x, toWords_of_whole_words h, wordGroups_length x, fun k => wordGroups_getD⟩
  · rw [toWords_of_whole_words (by simp), wordGroups_buf]

/-! ## Serialising (R69, R70) -/

/-- Byte `k` of a word is its lane `k` (R69). -/
theorem wordBytes_getElem? (v : Word) {k : Nat} (h : k < 4) : (wordBytes v)[k]? = some (lane v k) := by
  interval_cases k <;> rfl

/-- Dropping a word drops its 4 bytes. -/
theorem toBytes_drop (n : Nat) (ws : List Word) : (toBytes ws).drop (4 * n) = toBytes (ws.drop n) := by
  induction n generalizing ws with
  | zero => rfl
  | succ n ih =>
    cases ws with
    | nil => simp
    | cons v ws => exact ih ws

/-- Byte `4n + k` of serialised words is lane `k` of word `n` (R69). -/
theorem toBytes_getElem? {ws : List Word} {n k : Nat} (hn : n < ws.length) (hk : k < 4) :
    (toBytes ws)[4 * n + k]? = some (lane ws[n] k) := by
  rw [← List.getElem?_drop, toBytes_drop, List.drop_eq_getElem_cons hn, toBytes_cons,
    List.getElem?_append_left hk, wordBytes_getElem? _ hk]

/-- Whole words, grouped and serialised, are the bytes they came from (R70). -/
theorem toBytes_wordGroups {x : List Byte} (h : x.length % 4 = 0) : toBytes (wordGroups x) = x := by
  obtain ⟨b0, b1, b2, b3, rest, rfl⟩ | hshort := word_or_short x
  · have hrest : rest.length % 4 = 0 := by
      simp only [List.length_cons] at h
      omega
    simp [wordGroups, wordBytes, toBytes_wordGroups hrest]
  · obtain rfl : x = [] := List.eq_nil_of_length_eq_zero (by omega)
    rfl
termination_by x.length

/-- Words, serialised and grouped, are the words they came from (R70). -/
theorem wordGroups_toBytes (ws : List Word) : wordGroups (toBytes ws) = ws := by
  induction ws with
  | nil => rfl
  | cons v ws ih => simp [wordBytes, wordGroups, ih]

/-- Settles O46 (R69, R70): both round trips are those of `wordGroups`. -/
theorem parseAndSerialiseAreInverse : Obligations.ParseAndSerialiseAreInverse := by
  refine ⟨fun ws => ⟨toBytes_length ws, fun n k => toBytes_getElem?⟩, fun x h => ?_, fun ws => ?_⟩
  · exact ⟨wordGroups x, toWords_of_whole_words h, toBytes_wordGroups h⟩
  · rw [toWords_of_whole_words (by rw [toBytes_length]; omega), wordGroups_toBytes]

/-! ## A word of BUF and of the schedule (R71, R72) -/

/-- LOADM that no check stops writes its word of BUF (R108). -/
theorem exec_loadm_open {j : Nat} {s : State} (hj : j < 16) (he : s.err = false) (hb : s.bcnt = 0#6) :
    exec (.loadm j) s = .next (setBlockWord j s.din s) := by
  have hcheck : rawError s = none := by simp [rawError, hb]
  rw [exec, execLoadm, decide_eq_true hj, command_runs he hcheck]

/-- A word stored in BUF is read back: its 4 bytes are its lanes (R72). -/
theorem blockWord_storeBlockWord_same (j : Fin 16) (v : Word) (buf : Vector Byte 64) :
    blockWord (storeBlockWord j v buf) j = v := by
  have hlane : ∀ (k : Nat) (_ : k < 4), (storeBlockWord j v buf)[4 * j.val + k] = lane v k := fun k hk => by
    rw [storeBlockWord_getElem, if_pos (by omega), Nat.mul_add_mod, Nat.mod_eq_of_lt hk]
  calc blockWord (storeBlockWord j v buf) j
    _ = be32 (lane v 0) (lane v 1) (lane v 2) (lane v 3) := by
      rw [blockWord, ← hlane 0 (by decide), ← hlane 1 (by decide), ← hlane 2 (by decide), ← hlane 3 (by decide)]
      rfl
    _ = v := be32_lanes v

/-- The first micro-step of a compression parses BUF into W[0..15] (R71, R85). -/
theorem microStep_startCompression_w {j : Nat} (s : State) (hj : j < 16) :
    (microStep (startCompression s)).w[j] = blockWord s.buf ⟨j, hj⟩ := by
  rw [microStep_at_load (by simp)]
  simp [loadStep, hj]

/-- Settles O25 (R72): LOADM stores DIN as word j of BUF, and LOAD reads that word. -/
theorem loadedWordIsParsedBack : Obligations.LoadedWordIsParsedBack := by
  intro j hj s t he hb h
  rw [exec_loadm_open hj he hb] at h
  cases h
  rw [microStep_startCompression_w _ hj]
  exact blockWord_storeBlockWord_same ⟨j, hj⟩ s.din s.buf

end Sys2Proof.Machine
end

section
/-! PROOFS. The 32-bit operations of the datapath, bit by bit (spec/42_compression.md R76 to R83). -/

namespace Sys2Proof.Machine

/-- The logical right shift is the integer quotient (R76). -/
theorem shr_toNat (x : Word) (n : Nat) : (shr x n).toNat = x.toNat / 2 ^ n := by
  rw [shr, BitVec.toNat_ushiftRight, Nat.shiftRight_eq_div_pow]

/-- Bit `k` of a right rotation is the bit `n` places above, around the end of the word (R77). -/
theorem rotr_getLsbD (x : Word) {n k : Nat} (hn : 1 ≤ n) (hn32 : n < 32) (hk : k < 32) :
    (rotr x n).getLsbD k = x.getLsbD ((k + n) % 32) := by
  rw [rotr, BitVec.getLsbD_or, BitVec.getLsbD_ushiftRight, BitVec.getLsbD_shiftLeft]
  by_cases hwrap : k + n < 32
  · rw [Nat.mod_eq_of_lt hwrap, Nat.add_comm]
    simp [show k < 32 - n by omega]
  · have hhigh : x.getLsbD (n + k) = false := BitVec.getLsbD_of_ge x _ (by omega)
    have hindex : k - (32 - n) = (k + n) % 32 := by omega
    rw [hhigh, hindex]
    simp [hk, show ¬ k < 32 - n by omega]

/-- Settles O33 (R76, R77): the two rotations move a bit by 32 places in all. -/
theorem shiftAndRotationMoveEachBit : Obligations.ShiftAndRotationMoveEachBit := by
  refine ⟨fun x n _ _ => shr_toNat x n, fun x n k => rotr_getLsbD x, fun x n hn hn32 => ?_⟩
  apply BitVec.eq_of_getLsbD_eq
  intro k hk
  have hback : ((k + (32 - n)) % 32 + n) % 32 = k := by omega
  rw [rotr_getLsbD _ (by omega) (by omega) hk, rotr_getLsbD _ hn hn32 (Nat.mod_lt _ (by decide)), hback]

/-- Where `x` is 1 the choice is `y`, where it is 0 it is `z` (R78). -/
theorem ch_getLsbD (x y z : Word) {k : Nat} (hk : k < 32) :
    (ch x y z).getLsbD k = if x.getLsbD k then y.getLsbD k else z.getLsbD k := by
  rw [ch, BitVec.getLsbD_or, BitVec.getLsbD_and, BitVec.getLsbD_and, BitVec.getLsbD_not]
  cases x.getLsbD k <;> simp [hk]

/-- At least two of the three bits (R79). -/
theorem maj_getLsbD (x y z : Word) (k : Nat) : (maj x y z).getLsbD k = true ↔
    2 ≤ (x.getLsbD k).toNat + (y.getLsbD k).toNat + (z.getLsbD k).toNat := by
  have hbits : ∀ a b c : Bool, (a && b || a && c || b && c) = true ↔ 2 ≤ a.toNat + b.toNat + c.toNat := by decide
  rw [maj, BitVec.getLsbD_or, BitVec.getLsbD_or, BitVec.getLsbD_and, BitVec.getLsbD_and, BitVec.getLsbD_and, hbits]

/-- Settles O34 (R78 to R83): the sigma functions by the bits of their rotations, each of a count from 1 to 31. -/
theorem mixingFunctionsBitByBit : Obligations.MixingFunctionsBitByBit := by
  intro x y z k hk
  have hrotr : ∀ n, 1 ≤ n ∧ n < 32 → (rotr x n).getLsbD k = x.getLsbD ((k + n) % 32) := fun n ⟨h1, h32⟩ =>
    rotr_getLsbD x h1 h32 hk
  have hshr : ∀ n, (shr x n).getLsbD k = x.getLsbD (k + n) := fun n => by
    rw [shr, BitVec.getLsbD_ushiftRight, Nat.add_comm]
  refine ⟨ch_getLsbD x y z hk, maj_getLsbD x y z k, ?_, ?_, ?_, ?_⟩
  · simp [bigSigma0, hrotr]
  · simp [bigSigma1, hrotr]
  · simp [smallSigma0, hrotr, hshr]
  · simp [smallSigma1, hrotr, hshr]

end Sys2Proof.Machine
end

section
/-! PROOFS. The round constants (spec/42_compression.md R84). -/

namespace Sys2Proof.Machine

/-- The primes below 312, in order. -/
def firstPrimes : List Nat :=
  [2, 3, 5, 7, 11, 13, 17, 19, 23, 29, 31, 37, 41, 43, 47, 53] ++
  [59, 61, 67, 71, 73, 79, 83, 89, 97, 101, 103, 107, 109, 113, 127, 131] ++
  [137, 139, 149, 151, 157, 163, 167, 173, 179, 181, 191, 193, 197, 199, 211, 223] ++
  [227, 229, 233, 239, 241, 251, 257, 263, 269, 271, 277, 281, 283, 293, 307, 311]

/-- Below 18² a number is prime when nothing below 18, but itself, divides it. -/
theorem prime_iff_trial_division {p : Nat} (h : p < 18 ^ 2) :
    p.Prime ↔ 2 ≤ p ∧ ∀ m < 18, 2 ≤ m → m < p → ¬ m ∣ p := by
  constructor
  · intro hp
    refine ⟨hp.two_le, fun m _ h2 hlt hdvd => ?_⟩
    obtain h1 | hself := hp.eq_one_or_self_of_dvd m hdvd <;> omega
  · intro ⟨h2, hnone⟩
    refine Nat.prime_def_le_sqrt.mpr ⟨h2, fun m hm hsqrt => hnone m ?_ hm ?_⟩
    · exact hsqrt.trans_lt (Nat.sqrt_lt'.mpr h)
    · exact hsqrt.trans_lt (Nat.sqrt_lt_self h2)

set_option maxRecDepth 4000 in
/-- The list holds all the primes below 312 and nothing else. -/
theorem prime_iff_mem_firstPrimes : ∀ p < 312, p.Prime ↔ p ∈ firstPrimes := by
  have htable : ∀ p < 312, (2 ≤ p ∧ ∀ m < 18, 2 ≤ m → m < p → ¬ m ∣ p) ↔ p ∈ firstPrimes := by decide
  intro p hp
  rw [prime_iff_trial_division (by omega), htable p hp]

/-- `K[t]` is the first 32 bits behind the point of the cube root of the prime, whose integer part is `n`. -/
theorem K_is_fraction_of_cube_root : ∀ t : Fin 64, ∃ n < 7,
    (2 ^ 32 * n + K[t].toNat) ^ 3 ≤ firstPrimes.getD t.val 0 * 2 ^ 96 ∧
      firstPrimes.getD t.val 0 * 2 ^ 96 < (2 ^ 32 * n + K[t].toNat + 1) ^ 3 := by
  decide

/-- Settles O35 (R84; log 12): the root is its integer part and `K[t]` together. -/
theorem roundConstantsAreCubeRootsOfPrimes : Obligations.RoundConstantsAreCubeRootsOfPrimes := by
  refine ⟨rfl, prime_iff_mem_firstPrimes, fun t ht => ?_⟩
  obtain ⟨n, _, hle, hlt⟩ := K_is_fraction_of_cube_root ⟨t, ht⟩
  refine ⟨_, hle, hlt, ?_⟩
  rw [Nat.mul_add_mod]
  exact (Nat.mod_eq_of_lt K[t].isLt).symm

end Sys2Proof.Machine
end

section
/-! PROOFS. The micro-steps of a compression, one by one and in their order (spec/42_compression.md R85 to R92). -/

namespace Sys2Proof.Machine

/-- Settles O37 (R85). -/
theorem loadCopiesBlockAndHash : Obligations.LoadCopiesBlockAndHash := by
  intro s hs
  rw [microStep_at_load hs]
  refine ⟨fun j hj => ?_, fun j hj h16 => ?_, rfl, rfl, rfl⟩
  · simp [loadStep, hj, blockWord]
  · simp [loadStep, show ¬ j < 16 by omega]

/-- Settles O38 (R86). -/
theorem expandComputesOneScheduleWord : Obligations.ExpandComputesOneScheduleWord := by
  intro s t ht h16 hs
  rw [microStep_at_expand hs, expandStep, dif_pos h16]
  refine ⟨by simp [scheduleWord], fun j hj hne => ?_, fun hnext => dif_pos hnext, fun hlast => ?_, rfl⟩
  · exact Vector.getElem_set_ne ht hj hne.symm
  · exact dif_neg (by simp [hlast])

/-- Settles O39 (R87). -/
theorem roundShiftsTheWorkingRegisters : Obligations.RoundShiftsTheWorkingRegisters := by
  intro s r hr hs
  rw [microStep_at_round hs]
  refine ⟨rfl, fun hnext => dif_pos hnext, fun hlast => ?_, rfl⟩
  simp [roundStep, hlast]

/-- Settles O40 (R88). -/
theorem foldAccumulatesIntoHash : Obligations.FoldAccumulatesIntoHash := by
  intro s hs
  rw [microStep_at_fold hs]
  exact ⟨fun i hi => by simp [foldStep, foldWords], rfl, rfl⟩

/-- Settles O41 (R89, R92): the position after each micro-step is fixed, whatever the state. -/
theorem compressionIsTheFixedListOfMicroSteps : Obligations.CompressionIsTheFixedListOfMicroSteps := by
  intro s
  have hall : compression s = microSteps 114 (startCompression s) := rfl
  refine ⟨rfl, fun t h16 => ?_, fun t => ?_, phase_after_last_round s, ?_, hall⟩
  · have hcount : 1 + (t.val - 16) = t.val - 15 ∧ 16 + (t.val - 16) = t.val := by omega
    simpa only [hcount] using seq_after_expands s (k := t.val - 16) (by omega)
  · rw [Nat.add_comm]
    exact seq_after_rounds s t.isLt
  · rw [← hall]
    exact (compression_frame s).1

/-- Settles O42 (R90). -/
theorem compressionComputesCompressBlock : Obligations.CompressionComputesCompressBlock :=
  compression_withoutScratch

end Sys2Proof.Machine
end

section
/-! PROOFS. `compress` takes its blocks in order, and so does the raw mode of the engine (spec/42_compression.md R91,
spec/44_commands.md R107 to R109). -/

namespace Sys2Proof.Machine

/-! ## The pure function -/

/-- The block at the head of the words is compressed first; a partial block behind it is refused all the same. -/
theorem compress_block_append (h : Vector Word 8) (b : Vector Word 16) (ws : List Word) :
    compress h (b.toList ++ ws) = compress (compressBlock h b) ws := by
  have hlen : (b.toList ++ ws).length = ws.length + 16 := by simp [Nat.add_comm]
  have hfirst : firstBlock (b.toList ++ ws) = b := by
    rw [firstBlock_of_prefix (List.prefix_append b.toList ws) (by simp), firstBlock_toList]
  have hrest : (b.toList ++ ws).drop 16 = ws := by simp
  rw [compress, compress, hlen, Nat.add_mod_right, Nat.add_div_right _ (by decide), compressBlocks, hfirst, hrest]

/-- Settles O47 (R91, U3). -/
theorem compressTakesBlocksInOrder : Obligations.CompressTakesBlocksInOrder :=
  ⟨fun _ => rfl, fun h b ws _ => compress_block_append h b ws, fun _ _ h => if_pos h⟩

/-- `compress` of words given block by block is the fold of `compressBlock`. -/
theorem compress_flatMap (h : Vector Word 8) (bs : List (Vector Word 16)) :
    compress h (bs.flatMap fun b => b.toList) = .next (bs.foldl compressBlock h) := by
  induction bs generalizing h with
  | nil => rfl
  | cons b bs ih => rw [List.flatMap_cons, compress_block_append, ih, List.foldl_cons]

/-! ## The raw commands -/

/-- LOADH without an error recorded writes its word of H (R107). -/
theorem exec_loadh_open {i : Nat} {s : State} (hi : i < 8) (he : s.err = false) :
    exec (.loadh i) s = .next (setHashWord i s.din s) := by
  rw [exec, execLoadh, decide_eq_true hi, command_runs he rfl]

/-- COMPRESS that no check stops compresses (R109). -/
theorem exec_compress_open {s : State} (he : s.err = false) (hb : s.bcnt = 0#6) :
    exec .compress s = .next (compression s) := by
  have hcheck : rawError s = none := by simp [rawError, hb]
  rw [exec, execCompress, command_runs he hcheck]

/-- A word of BUF stays when another is stored (R108). -/
theorem blockWord_storeBlockWord_other {j k : Fin 16} (hne : j ≠ k) (v : Word) (buf : Vector Byte 64) :
    blockWord (storeBlockWord k v buf) j = blockWord buf j := by
  have hne : j.val ≠ k.val := Fin.val_ne_of_ne hne
  have hword : 4 * j.val / 4 ≠ k.val ∧ (4 * j.val + 1) / 4 ≠ k.val ∧ (4 * j.val + 2) / 4 ≠ k.val ∧
      (4 * j.val + 3) / 4 ≠ k.val := by omega
  simp only [blockWord, storeBlockWord_getElem, hword, if_false]

/-- The engine is at a block boundary, ready and without an error, with DONE = `d` and LEN = `l`. -/
structure AtBlockBoundary (d : Bool) (l : BitVec 64) (s : State) : Prop where
  ready : s.Ready
  err : s.err = false
  bcnt : s.bcnt = 0#6
  done : s.done = d
  len : s.len = l

/-- A block boundary is about six fields alone, and no raw command moves them. -/
theorem AtBlockBoundary.of_fields_eq {d : Bool} {l : BitVec 64} {s t : State} (hs : AtBlockBoundary d l s)
    (h : t.seq.phase = s.seq.phase ∧ t.resetLine = s.resetLine ∧ t.err = s.err ∧ t.bcnt = s.bcnt ∧ t.done = s.done ∧
      t.len = s.len) : AtBlockBoundary d l t := by
  obtain ⟨hphase, hline, herr, hbcnt, hdone, hlen⟩ := h
  exact ⟨⟨hphase.trans hs.ready.1, hline.trans hs.ready.2⟩, herr.trans hs.err, hbcnt.trans hs.bcnt,
    hdone.trans hs.done, hlen.trans hs.len⟩

/-- The state after the host's write of `v` to DIN, with `es` waiting (R26, R100). -/
def withDin (v : Word) (es : List HostEvent) (s : State) : State := { s.setPending es with din := v }

@[simp] theorem withDin_fields (v : Word) (es : List HostEvent) (s : State) :
    (withDin v es s).h = s.h ∧ (withDin v es s).buf = s.buf ∧ (withDin v es s).bcnt = s.bcnt ∧
    (withDin v es s).len = s.len ∧ (withDin v es s).din = v ∧ (withDin v es s).done = s.done ∧
    (withDin v es s).err = s.err ∧ (withDin v es s).seq = s.seq ∧ (withDin v es s).pending = es ∧
    (withDin v es s).resetLine = s.resetLine :=
  ⟨rfl, rfl, rfl, rfl, rfl, rfl, rfl, rfl, rfl, rfl⟩

/-- The host's writes of `v` to DIN and of a command's word run the command on DIN = `v` (R100, R102). -/
theorem runSteps_din_command {s t : State} {v : Word} {i : Instr} {es : List HostEvent} (hs : s.Ready)
    (hi : i.wellFormed = true) (hp : s.pending = writeEvent 0x04 v :: commandEvent (encode i) :: es)
    (ht : exec i (withDin v es s) = .next t) : runSteps 2 s = .next t := by
  have hdin : step s = .next (withDin v (commandEvent (encode i) :: es) s) :=
    step_write hs (r := .din) rfl (by decide) hp
  have hcommand : step (withDin v (commandEvent (encode i) :: es) s) = .next t :=
    (step_commandEvent (s := withDin v (commandEvent (encode i) :: es) s) (es := es) hs hi rfl).trans ht
  exact (runSteps_succ hdin).trans (runSteps_succ hcommand)

/-! ## The raw-mode sequence -/

/-- A property of the items handled so far, kept by the host's events for each item, holds after those for all. -/
theorem runSteps_flatMap {α : Type} {events : α → List HostEvent} {P : List α → State → Prop}
    (hstep : ∀ (done : List α) (a : α) (s : State) (es : List HostEvent), P done s → s.pending = events a ++ es →
      ∃ t, runSteps (events a).length s = .next t ∧ P (done ++ [a]) t ∧ t.pending = es)
    (as : List α) {done : List α} {s : State} {es : List HostEvent} (hs : P done s)
    (hp : s.pending = as.flatMap events ++ es) :
    ∃ t, runSteps (as.flatMap events).length s = .next t ∧ P (done ++ as) t ∧ t.pending = es := by
  induction as generalizing done s with
  | nil => exact ⟨s, rfl, by simpa using hs, hp⟩
  | cons a as ih =>
    rw [List.flatMap_cons, List.append_assoc] at hp
    obtain ⟨u, hrun, hu, hpu⟩ := hstep done a s _ hs hp
    obtain ⟨t, hrest, ht, hpt⟩ := ih hu hpu
    rw [List.flatMap_cons, List.length_append]
    exact ⟨t, (runSteps_add hrun).trans hrest, by simpa using ht, hpt⟩

/-- At a block boundary, with the words of `h` at `done` in H. -/
def HashLoaded (d : Bool) (l : BitVec 64) (h : Vector Word 8) (done : List (Fin 8)) (s : State) : Prop :=
  AtBlockBoundary d l s ∧ ∀ k ∈ done, s.h[k] = h[k]

/-- At a block boundary, with `h` in H and the words of `b` at `done` in BUF. -/
def BlockLoaded (d : Bool) (l : BitVec 64) (h : Vector Word 8) (b : Vector Word 16) (done : List (Fin 16)) (s : State) :
    Prop :=
  AtBlockBoundary d l s ∧ s.h = h ∧ ∀ k ∈ done, blockWord s.buf k = b[k]

/-- At a block boundary, with the blocks of `done` compressed from `h` one after the other. -/
def BlocksCompressed (d : Bool) (l : BitVec 64) (h : Vector Word 8) (done : List (Vector Word 16)) (s : State) : Prop :=
  AtBlockBoundary d l s ∧ s.h = done.foldl compressBlock h

section
variable {d : Bool} {l : BitVec 64} {h : Vector Word 8} {b : Vector Word 16} {s : State} {es : List HostEvent}

/-- One word of H (R107). -/
theorem runSteps_setH {done : List (Fin 8)} {i : Fin 8} (hs : HashLoaded d l h done s)
    (hp : s.pending = Line.events (.setH i.val h[i]) ++ es) :
    ∃ t, runSteps 2 s = .next t ∧ HashLoaded d l h (done ++ [i]) t ∧ t.pending = es := by
  obtain ⟨hb, hh⟩ := hs
  have hi : (Instr.loadh i.val).wellFormed = true := decide_eq_true i.isLt
  refine ⟨_, runSteps_din_command hb.ready hi hp (exec_loadh_open i.isLt (by simp [hb.err])),
    ⟨hb.of_fields_eq (by simp), fun k hk => ?_⟩, by simp⟩
  by_cases hki : i = k
  · simp [hki]
  · have hk : k ∈ done := by simpa [Ne.symm hki] using hk
    have hval := Fin.val_ne_of_ne hki
    simpa [Vector.getElem_setIfInBounds, hval] using hh k hk

/-- One word of BUF (R108). -/
theorem runSteps_setM {done : List (Fin 16)} {j : Fin 16} (hs : BlockLoaded d l h b done s)
    (hp : s.pending = Line.events (.setM j.val b[j]) ++ es) :
    ∃ t, runSteps 2 s = .next t ∧ BlockLoaded d l h b (done ++ [j]) t ∧ t.pending = es := by
  obtain ⟨hb, hh, hw⟩ := hs
  have hj : (Instr.loadm j.val).wellFormed = true := decide_eq_true j.isLt
  refine ⟨_, runSteps_din_command hb.ready hj hp (exec_loadm_open j.isLt (by simp [hb.err]) (by simp [hb.bcnt])),
    ⟨hb.of_fields_eq (by simp), by simp [hh], fun k hk => ?_⟩, by simp⟩
  simp only [setBlockWord_fields, withDin_fields]
  by_cases hkj : k = j
  · rw [hkj, blockWord_storeBlockWord_same]
  · rw [blockWord_storeBlockWord_other hkj]
    exact hw k (by simpa [hkj] using hk)

/-- LOADH x 8 puts the initial state in H (R91, R107). -/
theorem runSteps_loadStateEvents (hs : AtBlockBoundary d l s) (hp : s.pending = loadStateEvents h ++ es) :
    ∃ t, runSteps (loadStateEvents h).length s = .next t ∧ (AtBlockBoundary d l t ∧ t.h = h) ∧ t.pending = es := by
  obtain ⟨t, hrun, ⟨ht, hh⟩, hpt⟩ := runSteps_flatMap (P := HashLoaded d l h)
    (fun _ _ _ _ => runSteps_setH) (List.finRange 8) (done := []) ⟨hs, by simp⟩ hp
  exact ⟨t, hrun, ⟨ht, Vector.ext fun i hi => hh ⟨i, hi⟩ (by simp)⟩, hpt⟩

/-- LOADM x 16 and COMPRESS compress the block (R91, R108, R109). -/
theorem runSteps_blockEvents (hs : AtBlockBoundary d l s) (hp : s.pending = blockEvents b ++ es) :
    ∃ t, runSteps (blockEvents b).length s = .next t ∧ AtBlockBoundary d l t ∧ t.h = compressBlock s.h b ∧
      t.pending = es := by
  rw [blockEvents, List.append_assoc] at hp
  obtain ⟨u, hload, ⟨hu, hh, hw⟩, hpu⟩ := runSteps_flatMap (P := BlockLoaded d l s.h b)
    (fun _ _ _ _ => runSteps_setM) (List.finRange 16) (done := []) ⟨hs, rfl, by simp⟩ hp
  have hblock : blockWords u.buf = b := Vector.ext fun j hj => by
    rw [blockWords_getElem]
    exact hw ⟨j, hj⟩ (by simp)
  have hcompress : step u = .next (compression (u.setPending es)) :=
    (step_commandEvent hu.ready rfl hpu).trans (exec_compress_open hu.err hu.bcnt)
  rw [blockEvents, List.length_append]
  refine ⟨_, (runSteps_add hload).trans (runSteps_succ hcompress), hu.of_fields_eq ?_, ?_, by simp⟩
  · simp [hu.ready.1]
  · simp [hh, hblock]

/-- Block after block (R91). -/
theorem runSteps_blocks {bs : List (Vector Word 16)} (hs : AtBlockBoundary d l s ∧ s.h = h)
    (hp : s.pending = bs.flatMap blockEvents ++ es) :
    ∃ t, runSteps (bs.flatMap blockEvents).length s = .next t ∧ BlocksCompressed d l h bs t ∧ t.pending = es := by
  refine runSteps_flatMap (P := BlocksCompressed d l h) (fun done b u fs ⟨hu, hh⟩ hpu => ?_) bs (done := []) hs hp
  obtain ⟨t, hrun, ht, hth, hpt⟩ := runSteps_blockEvents hu hpu
  exact ⟨t, hrun, ⟨ht, by rw [hth, hh, List.foldl_concat]⟩, hpt⟩

end

/-- Settles O52 (R91, R107 to R109): LOADH x 8 makes H the initial state, and each block's events compress that block. -/
theorem rawCommandsComputeCompress : Obligations.RawCommandsComputeCompress := by
  intro h bs s hs he hb hp
  have hstart : AtBlockBoundary s.done s.len s := ⟨hs, he, hb, rfl, rfl⟩
  obtain ⟨u, hload, hu, hpu⟩ := runSteps_loadStateEvents hstart hp
  obtain ⟨t, hblocks, ⟨ht, hh⟩, hpt⟩ := runSteps_blocks hu (by rw [hpu, List.append_nil])
  rw [rawEvents, List.length_append, compress_flatMap, ← hh]
  exact ⟨t, (runSteps_add hload).trans hblocks, rfl, ht.err, ht.bcnt, ht.done, ht.len, hpt⟩

end Sys2Proof.Machine
end

section
/-! PROOFS. The hash of a message by its padded bytes (spec/43_hash.md R94, R97), and the digest read-out (R95). -/

namespace Sys2Proof.Machine

/-! ## The hash (R94) -/

/-- A string of whole blocks is compressed block by block to its chaining value (R91). -/
theorem compress_wordGroups {p : List Byte} (h : p.length % 64 = 0) :
    compress IV (wordGroups p) = .next (chainingValue p) := by
  rw [compress, wordGroups_length, if_neg (by omega), Nat.div_div_eq_div_mul, chainingValue]

/-- The padded message is whole blocks (R60). -/
theorem padded_length_mod (m : List Byte) : (padded m).length % 64 = 0 := by
  rw [padded_length, Nat.mul_mod_right]

/-- The final state is the chaining value of the padded message (R94). -/
theorem finalState_of_le {m : List Byte} (h : m.length ≤ maxMessage) :
    finalState m = .next (chainingValue (padded m)) := by
  have hblocks := padded_length_mod m
  simp only [finalState, andThen, pad_of_le h, toWords_of_whole_words (x := padded m) (by omega),
    compress_wordGroups hblocks]

/-- The hash is the first 28 bytes of the final state (R94). -/
theorem messageHash_of_finalState {m : List Byte} {f : Vector Word 8} (h : finalState m = .next f) :
    messageHash m = .next ((toBytes f.toList).take 28) := by
  simp only [messageHash, andThen, h]

/-- Settles O48 (R94, R97): the padded message is whole words and whole blocks, and the final state has 8 words. -/
theorem hashIsTwentyEightBytesOfTheFinalState : Obligations.HashIsTwentyEightBytesOfTheFinalState := by
  intro m hm
  have hblocks := padded_length_mod m
  refine ⟨padded m, wordGroups (padded m), chainingValue (padded m), pad_of_le hm, toWords_of_whole_words (by omega),
    compress_wordGroups hblocks, messageHash_of_finalState (finalState_of_le hm), ?_⟩
  rw [List.length_take, toBytes_length, Vector.length_toList]
  decide

/-! ## The digest (R95) -/

/-- Taking words takes their bytes. -/
theorem toBytes_take (n : Nat) (ws : List Word) : (toBytes ws).take (4 * n) = toBytes (ws.take n) := by
  induction n generalizing ws with
  | zero => rfl
  | succ n ih =>
    cases ws with
    | nil => simp
    | cons v ws => exact congrArg (wordBytes v ++ ·) (ih ws)

/-- The digest is the state's bytes without H[7] (R94, R95). -/
theorem digest_eq_take (s : State) : digest s = (toBytes s.h.toList).take 28 := (toBytes_take 7 s.h.toList).symm

/-- The window holds H[i] at offset 0x20 + 4i (R31). -/
theorem slotAt_hash {i : Nat} (h : i < 8) : slotAt (0x20 + 4 * i) = some (.hash ⟨i, h⟩) := by
  interval_cases i <;> rfl

/-- Settles O49 (R95): the digest serialises H[0..6], and H[i] is read back from its place in the window. -/
theorem digestBytesAreTheHashWordsBytes : Obligations.DigestBytesAreTheHashWordsBytes := by
  refine fun s => ⟨by simp [digest, toBytes_length], fun i hi => ⟨⟨_, slotAt_hash (by omega), rfl⟩, fun k hk => ?_⟩⟩
  rw [digest, toBytes_getElem? (by simpa using hi) hk, List.getElem_take, Vector.getElem_toList]
  rfl

end Sys2Proof.Machine
end

section
/-! SUPPORT. PADTAIL after an absorbed message (spec/40_padding.md R66, R67): the blocks it compresses are the last
blocks of the padded message, so H ends as the final state of the hash (spec/43_hash.md R94). -/

namespace Sys2Proof.Machine

/-! ## The blocks of PADTAIL as bytes (R66) -/

/-- Bytes that fill the open block have it compressed, and the next block is empty. -/
theorem append_fills_block {m x : List Byte} {block : Vector Byte 64} (hblock : block.toList = openBlock m ++ x) :
    chainingValue (m ++ x) = compressBlock (chainingValue m) (blockWords block) ∧ openBlock (m ++ x) = [] := by
  have hbytes : 64 = m.length - 64 * (m.length / 64) + x.length := by
    simpa [openBlock] using congrArg List.length hblock
  have hlength : (m ++ x).length = 64 * (m.length / 64 + 1) := by
    rw [List.length_append]
    omega
  have hblocks : (m ++ x).length / 64 = m.length / 64 + 1 := by rw [hlength, Nat.mul_div_cancel_left _ (by decide)]
  have hwords : (wordGroups (m ++ x)).drop (16 * (m.length / 64)) = (blockWords block).toList := by
    rw [wordGroups_drop, ← Nat.mul_assoc, ← wordGroups_buf, hblock, openBlock,
      List.drop_append_of_le_length (Nat.mul_div_le _ _)]
  have hbefore : compressBlocks (m.length / 64) IV (wordGroups (m ++ x)) = chainingValue m :=
    compressBlocks_of_prefix (wordGroups_prefix_append m x) (by rw [wordGroups_length]; omega)
  exact ⟨by rw [chainingValue, hblocks, compressBlocks_succ, hwords, firstBlock_toList, hbefore],
    by rw [openBlock, hblocks, ← hlength, List.drop_length]⟩

theorem be64bytes_getElem (v : BitVec 64) {k : Nat} (h : k < (be64bytes v).length) :
    (be64bytes v)[k] = lenByte v k := by
  simp [be64bytes]

/-- The one-block form: the open bytes, the terminator, zeros and the length field (R66). -/
theorem bytes_of_one_block {s : State} (hb : s.bcnt.toNat ≤ 55) : (writeLength (padFirst s)).buf.toList =
    s.buf.toList.take s.bcnt.toNat ++ ([0x80#8] ++ List.replicate (55 - s.bcnt.toNat) 0#8 ++ be64bytes s.len) := by
  rw [buf_of_one_block hb]
  refine List.ext_getElem (by simp; omega) fun n h1 h2 => ?_
  simp only [Vector.getElem_toList, Vector.getElem_ofFn, List.getElem_append, List.getElem_take, List.getElem_replicate,
    be64bytes_getElem]
  grind

/-- The first block of the two-block form: the open bytes, the terminator and zeros (R66). -/
theorem bytes_of_first_block {s : State} (hb : ¬ s.bcnt.toNat ≤ 55) : (padFirst s).buf.toList =
    s.buf.toList.take s.bcnt.toNat ++ ([0x80#8] ++ List.replicate (63 - s.bcnt.toNat) 0#8) := by
  rw [buf_of_first_block hb]
  refine List.ext_getElem (by simp; omega) fun n h1 h2 => ?_
  simp only [Vector.getElem_toList, Vector.getElem_ofFn, List.getElem_append, List.getElem_take, List.getElem_replicate]
  grind

/-- The second block of the two-block form: zeros and the length field (R66). -/
theorem bytes_of_length_block (s : State) : (writeLength (clearForLength s)).buf.toList =
    List.replicate 56 0#8 ++ be64bytes s.len := by
  rw [buf_of_length_block]
  refine List.ext_getElem (by simp) fun n h1 h2 => ?_
  simp only [Vector.getElem_toList, Vector.getElem_ofFn, List.getElem_append, List.getElem_replicate,
    List.length_replicate, be64bytes_getElem]
  rfl

/-! ## PADTAIL after an absorbed message -/

/-- The length field is the 64-bit LEN register (R25, R63). -/
theorem Absorbed.len_eq {m : List Byte} {s : State} (hs : Absorbed m s) : BitVec.ofNat 64 (8 * m.length) = s.len := by
  rw [← hs.len, BitVec.ofNat_toNat, BitVec.setWidth_eq]

/-- Where the length field fits in the open block, the padding fills that block (R60). -/
theorem padded_of_one_block {m : List Byte} {s : State} (hs : Absorbed m s) (hb : s.bcnt.toNat ≤ 55) :
    padded m = m ++ ([0x80#8] ++ List.replicate (55 - s.bcnt.toNat) 0#8 ++ be64bytes s.len) := by
  have hbcnt := hs.bcnt
  have hzeros : padZeros m.length = 55 - s.bcnt.toNat := by
    unfold padZeros
    omega
  rw [padded, hs.len_eq, hzeros, List.append_assoc, List.append_assoc, List.append_assoc]

/-- Where it does not fit, the terminator and the zeros fill the open block and the first 56 bytes of one more (R60). -/
theorem padded_of_two_blocks {m : List Byte} {s : State} (hs : Absorbed m s) (hb : ¬ s.bcnt.toNat ≤ 55) :
    padded m = m ++ ([0x80#8] ++ List.replicate (63 - s.bcnt.toNat) 0#8) ++
      (List.replicate 56 0#8 ++ be64bytes s.len) := by
  have hbcnt := hs.bcnt
  have hzeros : padZeros m.length = 63 - s.bcnt.toNat + 56 := by
    unfold padZeros
    omega
  rw [padded, hs.len_eq, hzeros, List.replicate_add]
  simp only [List.append_assoc]

/-- PADTAIL leaves the chaining value of the padded message in H (R66, R67). -/
theorem padtail_h {m : List Byte} {s : State} (hs : Absorbed m s) : (padtail s).h = chainingValue (padded m) := by
  by_cases hb : s.bcnt.toNat ≤ 55
  · have hbytes := bytes_of_one_block hb
    rw [hs.buf] at hbytes
    obtain ⟨hvalue, _⟩ := append_fills_block hbytes
    have hh : (writeLength (padFirst s)).h = chainingValue m := by simp [hs.h]
    rw [padtail, if_pos hb, compression_h, hh, padded_of_one_block hs hb, hvalue]
  · have hfirst := bytes_of_first_block hb
    have hsecond := bytes_of_length_block (compression (padFirst s))
    have hlen : (compression (padFirst s)).len = s.len := by simp
    rw [hs.buf] at hfirst
    obtain ⟨hvalue, hopen⟩ := append_fills_block hfirst
    rw [hlen, ← List.nil_append (_ ++ _), ← hopen] at hsecond
    obtain ⟨hvalue', _⟩ := append_fills_block hsecond
    have hh : (padFirst s).h = chainingValue m := by simp [hs.h]
    have hh' : (writeLength (clearForLength (compression (padFirst s)))).h = (compression (padFirst s)).h := by simp
    rw [padtail, if_neg hb, compression_h, hh', compression_h, hh, padded_of_two_blocks hs hb, hvalue', hvalue]

end Sys2Proof.Machine
end

section
/-! PROOFS. The streaming commands compute the hash (spec/43_hash.md R98). -/

namespace Sys2Proof.Machine

/-- The engine has closed the message `m` without an error, with its final state in H (R98, R106). -/
structure Finished (m : List Byte) (s : State) : Prop where
  err : s.err = false
  done : s.done = true
  len : s.len.toNat = 8 * m.length
  bcnt : s.bcnt = 0#6
  final : finalState m = .next s.h

/-- An absorbed message has a length the hash is defined for, since LEN holds its bits (R25, R60). -/
theorem Absorbed.length_le {m : List Byte} {s : State} (hs : Absorbed m s) : m.length ≤ maxMessage := by
  have hlen := hs.len
  have hlt := s.len.isLt
  unfold maxMessage
  omega

/-- FINISH closes an absorbed message with its final state in H (R67, R106). -/
theorem step_finish_absorbed {m : List Byte} {s : State} {es : List HostEvent} (hs : Absorbed m s)
    (hp : s.pending = Line.events (.instr .finish) ++ es) : ∃ t, step s = .next t ∧ Finished m t := by
  have hu : Absorbed m (s.setPending es) := hs.with_din_pending s.din es
  refine ⟨_, (step_commandEvent hs.ready rfl hp).trans (exec_finish_open hu.err hu.done), ?_⟩
  refine ⟨by simp [hs.err], rfl, by simp [hs.len], rfl, ?_⟩
  rw [finalState_of_le hs.length_le, ← padtail_h hu]
  rfl

/-- The host's commands for a message cut into chunks, from an engine that has absorbed nothing, close it (R98). -/
theorem runSteps_stream {cs : List Chunk} {s : State} (hs : Absorbed [] s) (hcs : ∀ c ∈ cs, c.ok)
    (hlen : (cs.flatMap Chunk.bytes).length ≤ maxMessage) (hp : s.pending = streamEvents cs) :
    ∃ t, runSteps (streamEvents cs).length s = .next t ∧ Finished (cs.flatMap Chunk.bytes) t := by
  obtain ⟨u, hchunks, hu, hpu⟩ := runSteps_chunks hs hcs hlen hp
  obtain ⟨t, hfinish, ht⟩ := step_finish_absorbed (es := []) hu hpu
  rw [streamEvents, List.length_append]
  exact ⟨t, (runSteps_add hchunks).trans (runSteps_succ hfinish), ht⟩

/-- After INIT nothing has been absorbed, whatever the engine held (R104). -/
theorem absorbed_nil_startMessage {s : State} (hs : s.Ready) : Absorbed [] (startMessage s) :=
  ⟨hs, rfl, rfl, rfl, rfl, rfl, rfl⟩

/-- The host's INIT begins a message in any ready engine, also one with an error recorded (R104, R120). -/
theorem step_init {s : State} {es : List HostEvent} (hs : s.Ready)
    (hp : s.pending = Line.events (.instr .init) ++ es) : step s = .next (startMessage (s.setPending es)) :=
  step_commandEvent hs rfl hp

/-- A closed message has its hash in the digest and word 7 of the final state in H[7] (R95, R98). -/
theorem Finished.computed {m : List Byte} {t : State} (ht : Finished m t) :
    ∃ f, t.err = false ∧ t.done = true ∧ t.len.toNat = 8 * m.length ∧ t.bcnt = 0#6 ∧
      messageHash m = .next (digest t) ∧ finalState m = .next f ∧ t.h[7] = f[7] :=
  ⟨t.h, ht.err, ht.done, ht.len, ht.bcnt, by rw [digest_eq_take, messageHash_of_finalState ht.final], ht.final, rfl⟩

/-- Settles O51 (R67, R98): reset and INIT both leave an engine that has absorbed nothing. -/
theorem streamingCommandsComputeTheHash : Obligations.StreamingCommandsComputeTheHash := by
  intro cs s hcs hlen hready
  refine ⟨fun hreset => ?_, ?_⟩
  · obtain ⟨hs, hp⟩ := absorbed_nil_of_reset hreset
    obtain ⟨t, hrun, ht⟩ := runSteps_stream hs hcs hlen hp
    obtain ⟨f, hf⟩ := ht.computed
    exact ⟨t, f, hrun, hf⟩
  · have hinit := step_init (s := s.setPending (Line.events (.instr .init) ++ streamEvents cs)) hready rfl
    have hs : Absorbed [] (startMessage (s.setPending (streamEvents cs))) := absorbed_nil_startMessage hready
    obtain ⟨t, hrun, ht⟩ := runSteps_stream hs hcs hlen rfl
    obtain ⟨f, hf⟩ := ht.computed
    exact ⟨t, f, (runSteps_succ hinit).trans hrun, hf⟩

end Sys2Proof.Machine
end

section
/-! PROOFS. The host's reads and writes of the register window, and the step that performs them (spec/44_commands.md R100
to R102, spec/20_memory.md R47). -/

namespace Sys2Proof.Machine

/-! ## The registers of the window (R31) -/

/-- A register stands inside the window: the last branch of `slotAt`, every other offset, answers none. -/
theorem slotAt_lt {off : Nat} {r : Slot} (h : slotAt off = some r) : off < 64 := by
  unfold slotAt at h
  split at h
  case h_17 => cases h
  all_goals decide

/-- CMD stands at offset 0x00 alone, and DIN at offset 0x04 alone. -/
theorem off_of_slotAt {off : Nat} {r : Slot} (h : slotAt off = some r) :
    (r = .cmd → off = 0x00) ∧ (r = .din → off = 0x04) := by
  have hall : ∀ n < 64, (slotAt n = some .cmd → n = 0x00) ∧ (slotAt n = some .din → n = 0x04) := by decide
  obtain ⟨hcmd, hdin⟩ := hall off (slotAt_lt h)
  exact ⟨fun hr => hcmd (hr ▸ h), fun hr => hdin (hr ▸ h)⟩

/-- Settles O11 (R100): by the registers at 0x00 and 0x04, and no other register takes a write. -/
theorem hostWriteDispatchesStoresOrIsIgnored : Obligations.HostWriteDispatchesStoresOrIsIgnored := by
  intro s off v r h
  obtain ⟨hcmd, hdin⟩ := off_of_slotAt h
  cases r with
  | cmd => rw [hcmd rfl]; rfl
  | din => rw [hdin rfl]; rfl
  | _ =>
    have h0 : off ≠ 0x00 := by rintro rfl; cases h
    have h4 : off ≠ 0x04 := by rintro rfl; cases h
    rw [if_neg h0, if_neg h4]
    rfl

/-- STATUS as the host reads it (R32). -/
theorem statusWord_eq_ofNat (s : State) :
    statusWord s = BitVec.ofNat 32 (s.done.toNat + 2 * s.err.toNat + 16 * s.ecode.toNat + 256 * s.bcnt.toNat) := by
  rw [← statusWord_toNat, BitVec.ofNat_toNat, BitVec.setWidth_eq]

/-- Settles O9 (R101): register by register of the window. -/
theorem hostReadReturnsTheRegister : Obligations.HostReadReturnsTheRegister := by
  intro s off v hv
  suffices hall : ∀ p : Nat × Word, p ∈ _ → ∃ r, slotAt p.1 = some r ∧ regRead r s = p.2 from hall (off, v) hv
  simp only [List.forall_mem_cons]
  exact ⟨⟨.cmd, rfl, rfl⟩, ⟨.din, rfl, rfl⟩, ⟨.status, rfl, statusWord_eq_ofNat s⟩, ⟨.lenlo, rfl, rfl⟩,
    ⟨.lenhi, rfl, rfl⟩, ⟨.reserved, rfl, rfl⟩, ⟨.reserved, rfl, rfl⟩, ⟨.reserved, rfl, rfl⟩, ⟨.hash 0, rfl, rfl⟩,
    ⟨.hash 1, rfl, rfl⟩, ⟨.hash 2, rfl, rfl⟩, ⟨.hash 3, rfl, rfl⟩, ⟨.hash 4, rfl, rfl⟩, ⟨.hash 5, rfl, rfl⟩,
    ⟨.hash 6, rfl, rfl⟩, ⟨.hash 7, rfl, rfl⟩, by simp⟩

/-! ## The step of a ready engine (R47) -/

/-- The host's write of any word to CMD is DISPATCH of the word (R50, R102). -/
theorem step_dispatches {s : State} {c : Word} {es : List HostEvent} (hs : s.Ready)
    (hp : s.pending = commandEvent c :: es) : step s = dispatchWord c (s.setPending es) :=
  step_write hs (r := .cmd) rfl (by decide) hp

/-- Settles O6 (R50, R102): DISPATCH of a legal word, and of an illegal one. -/
theorem stepRunsTheWrittenCommand : Obligations.StepRunsTheWrittenCommand := by
  constructor
  · intro s c es i hs hp hc
    rw [step_dispatches hs hp, dispatchWord, hc]
  · intro s c es why hs hp hc
    rw [step_dispatches hs hp, dispatchWord, hc]

/-- Settles O7 (R41, R47, R100, R101): what a read returns does not depend on the waiting events. -/
theorem stepPerformsTheHostAccess : Obligations.StepPerformsTheHostAccess := by
  constructor
  · intro s off r es hs hp hr
    rw [step_read hs hr (slotAt_lt hr) hp, regRead_setPending]
    rfl
  · intro s off v r es hs hp hr
    exact step_write hs hr (slotAt_lt hr) hp

end Sys2Proof.Machine
end

section
/-! PROOFS. NOP, INIT and the raw commands (spec/44_commands.md R103, R104, R107 to R109). -/

namespace Sys2Proof.Machine

/-- Settles O21 (R103): the error gate and the empty effect leave the same state. -/
theorem nopChangesNothing : Obligations.NopChangesNothing := by
  intro s
  rw [exec, execNop]
  cases he : s.err
  · rw [command_runs he rfl, id]
  · rw [command_gated he]

/-- Settles O22 (R104): INIT has no check of its own, and the gate lets it through. -/
theorem initStartsANewMessage : Obligations.InitStartsANewMessage := fun _ => rfl

/-- Settles O23 (R107). -/
theorem loadhWritesOneHashWord : Obligations.LoadhWritesOneHashWord := by
  intro i hi s he
  have hset : s.h.setIfInBounds i s.din = s.h.set i s.din hi := by
    ext n hn : 1
    rw [Vector.getElem_setIfInBounds, Vector.getElem_set]
  rw [exec_loadh_open hi he, setHashWord, hset]

/-- LOADM and COMPRESS in a partly filled block record PARTIAL_BLOCK (code 3) alone (R115). -/
theorem command_rawError_partial {run : State → State} {s : State} (he : s.err = false) (hb : s.bcnt ≠ 0#6) :
    command true rawError run s = { s with err := true, ecode := 3#4 } := by
  have hcheck : rawError s = some .partialBlock := if_pos hb
  rw [command_raises he hcheck, raiseError, he]
  rfl

/-- Settles O24 (R108): byte `n` of BUF is of the stored word when `n / 4 = j`. -/
theorem loadmWritesFourBlockBytes : Obligations.LoadmWritesFourBlockBytes := by
  intro j hj s he
  constructor
  · intro hb
    refine ⟨_, exec_loadm_open hj he hb, fun k hk => ?_, fun n hn hout => ?_, ?_⟩
    · simp only [setBlockWord_fields, storeBlockWord_getElem]
      rw [if_pos (by omega), Nat.mul_add_mod, Nat.mod_eq_of_lt hk, lane]
    · simp only [setBlockWord_fields, storeBlockWord_getElem]
      exact if_neg (by omega)
    · simp only [setBlockWord]
  · intro hb
    rw [exec, execLoadm, decide_eq_true hj, command_rawError_partial he hb]

/-- Settles O26 (R109): besides the scratch a compression changes H alone. -/
theorem compressFoldsTheBlock : Obligations.CompressFoldsTheBlock := by
  intro s he
  constructor
  · exact fun hb => ⟨_, exec_compress_open he hb, compression_withoutScratch s⟩
  · intro hb
    rw [exec, execCompress, command_rawError_partial he hb]

end Sys2Proof.Machine
end

section
/-! PROOFS. ABSORB byte by byte (spec/44_commands.md R105): inside a block, and across its end. -/

namespace Sys2Proof.Machine

/-! ## The bytes that ABSORB's loop stores -/

/-- BUF with `n` lanes of `v`, from lane `k` on, in the bytes from `b` on. -/
def storeLanes (b n k : Nat) (v : Word) (buf : Vector Byte 64) : Vector Byte 64 :=
  Vector.ofFn fun i => if b ≤ i.val ∧ i.val < b + n then lane v (k + (i.val - b)) else buf[i]

@[simp] theorem storeLanes_getElem (b n k : Nat) (v : Word) (buf : Vector Byte 64) (i : Nat) (hi : i < 64) :
    (storeLanes b n k v buf)[i] = if b ≤ i ∧ i < b + n then lane v (k + (i - b)) else buf[i] := by
  simp [storeLanes]

@[simp] theorem storeLanes_zero (b k : Nat) (v : Word) (buf : Vector Byte 64) : storeLanes b 0 k v buf = buf := by
  ext i hi : 1
  rw [storeLanes_getElem, if_neg (by omega)]

/-- The first lane, and then the others. -/
theorem storeLanes_set_first {b : Nat} (hb : b < 64) (n k : Nat) (v : Word) (buf : Vector Byte 64) :
    storeLanes (b + 1) n (k + 1) v (buf.set b (lane v k)) = storeLanes b (n + 1) k v buf := by
  ext i hi : 1
  simp only [storeLanes_getElem, Vector.getElem_set]
  obtain hlt | rfl | hgt := Nat.lt_trichotomy i b
  · rw [if_neg (by omega), if_neg (by omega), if_neg (by omega)]
  · rw [if_neg (by omega), if_pos rfl, if_pos (by omega), Nat.sub_self, Nat.add_zero]
  · rw [if_neg (by omega : b ≠ i), show k + 1 + (i - (b + 1)) = k + (i - b) by omega]
    exact if_congr (by omega) rfl rfl

/-- The last lane after the others. -/
theorem storeLanes_set_last {b n : Nat} (hb : b + n < 64) (k : Nat) (v : Word) (buf : Vector Byte 64) :
    (storeLanes b n k v buf).set (b + n) (lane v (k + n)) = storeLanes b (n + 1) k v buf := by
  ext i hi : 1
  simp only [storeLanes_getElem, Vector.getElem_set]
  by_cases h : b + n = i
  · rw [if_pos h, if_pos (by omega), show k + (i - b) = k + n by omega]
  · rw [if_neg h]
    exact if_congr (by omega) rfl rfl

/-! ## Inside a block -/

/-- Bytes that do not fill BUF are stored and counted, and nothing else happens (R105). -/
theorem absorbBytes_of_fits {n k : Nat} {s : State} (h : s.bcnt.toNat + n < 64) :
    absorbBytes n k s = { s with
      buf := storeLanes s.bcnt.toNat n k s.din s.buf
      len := s.len + BitVec.ofNat 64 (8 * n)
      bcnt := s.bcnt + BitVec.ofNat 6 n } := by
  induction n generalizing k s with
  | zero => simp [absorbBytes]
  | succ n ih =>
    have hopen : s.bcnt ≠ 63#6 := fun hfull => by
      rw [hfull, BitVec.toNat_ofNat] at h
      omega
    have hbyte : absorbByte k s = { s with
        buf := s.buf.set s.bcnt.toNat (lane s.din k) s.bcnt.isLt, len := s.len + 8#64, bcnt := s.bcnt + 1#6 } :=
      if_neg hopen
    have hbcnt : (s.bcnt + 1#6).toNat = s.bcnt.toNat + 1 := by
      rw [BitVec.toNat_add, BitVec.toNat_ofNat]
      omega
    have hcount : s.bcnt + 1#6 + BitVec.ofNat 6 n = s.bcnt + BitVec.ofNat 6 (n + 1) := by
      rw [BitVec.add_assoc, ← BitVec.ofNat_add, Nat.add_comm]
    have hlen : s.len + 8#64 + BitVec.ofNat 64 (8 * n) = s.len + BitVec.ofNat 64 (8 * (n + 1)) := by
      rw [BitVec.add_assoc, ← BitVec.ofNat_add, Nat.add_comm, Nat.mul_succ]
    rw [absorbBytes, hbyte, ih (by simp only [hbcnt]; omega)]
    simp only [hbcnt, hcount, hlen, storeLanes_set_first s.bcnt.isLt]

/-- Settles O27 (R105): the effect is that of `absorbBytes_of_fits`, and neither count wraps. -/
theorem absorbInsideABlockStoresTheBytes : Obligations.AbsorbInsideABlockStoresTheBytes := by
  intro nb s h1 h4 he hd hlen hfits
  have hloop := absorbBytes_of_fits (k := 0) hfits
  refine ⟨_, exec_absorb_open ⟨h1, h4⟩ he hd (by omega), fun n hn => ?_, absorbBytes_len 0 (by omega), ?_, ?_⟩
  · simp only [hloop, storeLanes_getElem, Nat.zero_add]
  · rw [absorbBytes_bcnt, Nat.mod_eq_of_lt hfits]
  · rw [hloop]

/-! ## Across the end of a block -/

theorem absorbBytes_add (m n k : Nat) (s : State) :
    absorbBytes (m + n) k s = absorbBytes n (k + m) (absorbBytes m k s) := by
  induction m generalizing k s with
  | zero => rw [Nat.zero_add]; rfl
  | succ m ih => rw [Nat.succ_add, absorbBytes, ih, absorbBytes, Nat.add_right_comm, Nat.add_assoc]

/-- Each byte is stored, whether it fills BUF or not, and a compression keeps it (R105). -/
theorem absorbByte_buf (k : Nat) (s : State) : (absorbByte k s).buf = (putByte (lane s.din k) s).buf := by
  unfold absorbByte
  split <;> simp

/-- The compression leaves the sequencer idle, wherever it stood before (R89, R105). -/
theorem absorbByte_seq_of_full {k : Nat} {s : State} (h : s.bcnt.toNat = 63) :
    (absorbByte k s).seq.phase = .idle := by
  rw [absorbByte, if_pos (BitVec.eq_of_toNat_eq h)]
  simp

/-- The bytes up to the one that fills BUF, which has the filled block compressed (R105). -/
theorem absorbBytes_of_fills {m k : Nat} {s : State} (h : s.bcnt.toNat + m = 63) :
    (absorbBytes (m + 1) k s).h = compressBlock s.h (blockWords (storeLanes s.bcnt.toNat (m + 1) k s.din s.buf)) ∧
    (absorbBytes (m + 1) k s).buf = storeLanes s.bcnt.toNat (m + 1) k s.din s.buf ∧
    (absorbBytes (m + 1) k s).seq.phase = .idle := by
  have hbefore := absorbBytes_of_fits (k := k) (show s.bcnt.toNat + m < 64 by omega)
  have hcount : (absorbBytes m k s).bcnt.toNat = s.bcnt.toNat + m := by
    rw [absorbBytes_bcnt, Nat.mod_eq_of_lt (by omega)]
  have hstore : (putByte (lane (absorbBytes m k s).din (k + m)) (absorbBytes m k s)).buf =
      storeLanes s.bcnt.toNat (m + 1) k s.din s.buf := by
    simp only [putByte_fields, hcount]
    simp only [hbefore]
    exact storeLanes_set_last (by omega) k s.din s.buf
  have hlast : absorbBytes (m + 1) k s = absorbByte (k + m) (absorbBytes m k s) := absorbBytes_add m 1 k s
  rw [hlast]
  refine ⟨?_, by rw [absorbByte_buf, hstore], absorbByte_seq_of_full (hcount.trans h)⟩
  rw [(absorbByte_of_full (hcount.trans h)).1, hstore, hbefore]

/-- The bytes after the one that fills BUF go to BUF[0] onwards (R105). -/
theorem absorbBytes_across {m r : Nat} (k : Nat) {s : State} (h : s.bcnt.toNat + m = 63) (hr : r < 64) :
    (absorbBytes (m + 1 + r) k s).h =
      compressBlock s.h (blockWords (storeLanes s.bcnt.toNat (m + 1) k s.din s.buf)) ∧
    (absorbBytes (m + 1 + r) k s).buf =
      storeLanes 0 r (k + (m + 1)) s.din (storeLanes s.bcnt.toNat (m + 1) k s.din s.buf) ∧
    (absorbBytes (m + 1 + r) k s).seq.phase = .idle := by
  obtain ⟨hh, hbuf, hseq⟩ := absorbBytes_of_fills (k := k) h
  have hzero : (absorbBytes (m + 1) k s).bcnt.toNat = 0 := by
    rw [absorbBytes_bcnt]
    omega
  have hdin : (absorbBytes (m + 1) k s).din = s.din := by simp
  rw [absorbBytes_add, absorbBytes_of_fits (by omega), hzero, hdin, hbuf]
  exact ⟨hh, rfl, hseq⟩

/-- Settles O28 (R105): the loop up to the byte that fills BUF, and then the rest of it inside the next block. -/
theorem absorbAcrossABlockCompressesOnce : Obligations.AbsorbAcrossABlockCompressesOnce := by
  intro nb s h1 h4 he hd hlen hfills
  obtain ⟨m, hm⟩ : ∃ m, s.bcnt.toNat + m = 63 := ⟨63 - s.bcnt.toNat, by omega⟩
  obtain ⟨r, rfl⟩ : ∃ r, nb = m + 1 + r := ⟨nb - (m + 1), by omega⟩
  have hfilled : storeLanes s.bcnt.toNat (m + 1) 0 s.din s.buf = Vector.ofFn fun n : Fin 64 =>
      if s.bcnt.toNat ≤ n.val then lane s.din (n.val - s.bcnt.toNat) else s.buf[n] := by
    ext n hn : 1
    simp only [storeLanes_getElem, Vector.getElem_ofFn, Nat.zero_add]
    exact if_congr (by omega) rfl rfl
  obtain ⟨hh, hbuf, hseq⟩ := absorbBytes_across (r := r) 0 hm (by omega)
  rw [hfilled] at hh hbuf
  refine ⟨_, exec_absorb_open ⟨h1, h4⟩ he hd (by omega), ⟨hh, fun n hn => ?_⟩, absorbBytes_len 0 (by omega), ?_, ?_⟩
  · have hlane : 0 + (m + 1) + (n - 0) = n + 64 - s.bcnt.toNat := by omega
    rw [hbuf, storeLanes_getElem, hlane]
    exact if_congr (by omega) rfl rfl
  · rw [absorbBytes_bcnt]
    omega
  · have hidle : (absorbBytes (m + 1 + r) 0 s).seq.withoutFreeCounter = (⟨.idle, 0⟩ : Seq).withoutFreeCounter := by
      simp only [Seq.withoutFreeCounter, hseq]
    refine withoutScratch_eq_iff.mpr ?_
    simp only [absorbBytes_frame, hidle, and_self]

end Sys2Proof.Machine
end

section
/-! PROOFS. The errors and the gate (spec/60_exceptions.md R111 to R120). -/

namespace Sys2Proof.Machine

/-! ## The error record (R112) -/

/-- The first error is recorded. -/
theorem raiseError_of_no_error (code : ErrorCode) {s : State} (he : s.err = false) :
    raiseError code s = { s with err := true, ecode := code.bits } := by
  rw [raiseError, he]
  rfl

/-- A later error is not. -/
theorem raiseError_of_error (code : ErrorCode) {s : State} (he : s.err = true) : raiseError code s = s := if_pos he

/-- A command that leaves ERR set where it was clear has recorded an error, for no other effect writes ERR but INIT's, which
clears it. -/
theorem eq_raiseError_of_effect {i : Instr} {s t : State} (h : CommandEffect s i t) (he : s.err = false)
    (ht : t.err = true) : ∃ code, t = raiseError code s := by
  cases h with
  | raised _ code => exact ⟨code, rfl⟩
  | _ => simp [he] at ht

/-- Settles O15 (R112): the record itself, and the one outcome of a command that sets ERR. -/
theorem raisingChangesOnlyTheErrorRecord : Obligations.RaisingChangesOnlyTheErrorRecord := by
  refine ⟨fun code s => raiseError_of_no_error code, fun code s => raiseError_of_error code, fun i s t he h ht => ?_⟩
  obtain ⟨code, rfl⟩ := eq_raiseError_of_effect (exec_effect h) he ht
  exact ⟨code, raiseError_of_no_error code he⟩

/-! ## Illegal words and the gate (R113, R119, R120) -/

/-- With an error recorded a command that does not get past the gate changes nothing, whether it is legal or not. -/
theorem command_of_error {legal : Bool} {error : State → Option ErrorCode} {run : State → State} {s : State}
    (he : s.err = true) : command legal error run s = s := by
  cases legal with
  | true => exact command_gated he
  | false => exact raiseError_of_error .illegalCommand he

/-- Of the commands INIT alone does not go through the gate. -/
theorem exec_of_error {i : Instr} {s : State} (he : s.err = true) (hi : i ≠ .init) : exec i s = .next s := by
  cases i with
  | init => exact absurd rfl hi
  | _ => exact congrArg Host.Outcome.next (command_of_error he)

/-- Settles O19 (R102, R118, R119). -/
theorem errorGateIgnoresEveryCommandButInit : Obligations.ErrorGateIgnoresEveryCommandButInit :=
  fun _ _ he _ hi => exec_of_error he hi

/-- Settles O8 (R113): DISPATCH of such a word is `raise Error(ILLEGAL_COMMAND)`, before any gate. -/
theorem illegalWordRecordsIllegalCommand : Obligations.IllegalWordRecordsIllegalCommand := by
  intro c s hnone
  obtain ⟨why, hwhy⟩ := (illegal_iff c).mpr hnone
  rw [dispatchWord, hwhy]
  cases he : s.err
  · exact congrArg Host.Outcome.next (raiseError_of_no_error .illegalCommand he)
  · rw [raiseError_of_error .illegalCommand he, if_pos rfl, ← he]

/-- INIT has one word (R54). -/
theorem ne_init_of_decode {c : Word} {i : Instr} (hc : c ≠ 0x00000001#32) (h : decode c = .command i) : i ≠ .init := by
  rintro rfl
  exact hc (legalWordIsItsCommandsEncoding c .init h).2.symm

/-- With an error recorded no written word but INIT's changes the engine (R113, R119). -/
theorem dispatchWord_of_error {c : Word} {s : State} (he : s.err = true) (hc : c ≠ 0x00000001#32) :
    dispatchWord c s = .next s := by
  rw [dispatchWord]
  cases hd : decode c with
  | illegal why => exact congrArg Host.Outcome.next (raiseError_of_error .illegalCommand he)
  | command i => exact exec_of_error he (ne_init_of_decode hc hd)

/-- Settles O20 (R112, R119, R120): each step takes its word off and leaves an engine with the same recorded error. -/
theorem recordedErrorHoldsUntilInit : Obligations.RecordedErrorHoldsUntilInit := by
  intro cs
  induction cs with
  | nil =>
    intro s _ _ _ hp
    have hnothing : s.pending = [] := hp
    rw [State.setPending, ← hnothing]
    rfl
  | cons c cs ih =>
    intro s hs he hcs hp
    obtain ⟨hc, hcs⟩ := List.forall_mem_cons.mp hcs
    have hstep : step s = .next (s.setPending (cs.map commandEvent)) :=
      (step_dispatches hs hp).trans (dispatchWord_of_error he hc)
    rw [List.length_cons, runSteps_succ hstep]
    exact ih (s.setPending (cs.map commandEvent)) hs he hcs rfl

/-! ## Each command's own checks (R114 to R116) -/

/-- ABSORB that one of its own checks stops records that check's code alone. -/
theorem exec_absorb_raises {nb : Nat} {s : State} {code : ErrorCode} (hnb : 1 ≤ nb ∧ nb ≤ 4) (he : s.err = false)
    (hcheck : absorbError nb s = some code) :
    exec (.absorb nb) s = .next { s with err := true, ecode := code.bits } := by
  rw [exec, execAbsorb, decide_eq_true hnb, command_raises he hcheck, raiseError_of_no_error code he]

/-- Settles O16 (R114): SEQUENCE is the first check of ABSORB and the one check of FINISH. -/
theorem absorbAndFinishAfterDoneRaiseSequence : Obligations.AbsorbAndFinishAfterDoneRaiseSequence :=
  ⟨fun _ _ h1 h4 he hd => exec_absorb_raises ⟨h1, h4⟩ he (if_pos hd), fun _ => exec_finish_done⟩

/-- Settles O17 (R115): the PARTIAL_BLOCK sides of what LOADM and COMPRESS do. -/
theorem rawCommandsInAPartialBlockRaisePartialBlock : Obligations.RawCommandsInAPartialBlockRaisePartialBlock :=
  ⟨fun j s hj he hb => (loadmWritesFourBlockBytes j hj s he).2 hb, fun s he hb => (compressFoldsTheBlock s he).2 hb⟩

/-- Settles O18 (R116): with SEQUENCE excluded, the check that comes second. -/
theorem absorbPastTheLengthLimitRaisesOverflow : Obligations.AbsorbPastTheLengthLimitRaisesOverflow := by
  intro nb s h1 h4 he hd hlen
  have hcheck : absorbError nb s = some .lengthOverflow := by
    rw [absorbError, hd, if_neg Bool.false_ne_true, if_pos hlen]
  exact exec_absorb_raises ⟨h1, h4⟩ he hcheck

end Sys2Proof.Machine
end

section
/-! PROOFS. A command run micro-step by micro-step against the same command run as one step (spec/20_memory.md R42,
spec/70_reset_and_hazards.md R133). -/

namespace Sys2Proof.Machine

/-! ## How many micro-steps a command in progress takes -/

/-- The command in progress `r` takes `n` micro-steps, not fewer, and ends in `t`. -/
def EndsAfter (n : Nat) (r : Running) (t : State) : Prop :=
  ticks n r = ⟨t, none⟩ ∧ ∀ k < n, (ticks k r).rest ≠ none

/-- A command that is over takes no micro-step. -/
theorem EndsAfter.over (t : State) : EndsAfter 0 ⟨t, none⟩ t := ⟨rfl, fun _ hk => absurd hk (Nat.not_lt_zero _)⟩

theorem ticks_add (m n : Nat) (r : Running) : ticks (m + n) r = ticks n (ticks m r) := by
  induction m generalizing r with
  | zero => rw [Nat.zero_add]; rfl
  | succ m ih => rw [Nat.succ_add]; exact ih (tick r)

/-- One more micro-step at the end. -/
theorem ticks_succ (n : Nat) (r : Running) : ticks (n + 1) r = tick (ticks n r) := ticks_add n 1 r

/-- Nothing follows the end of a command. -/
theorem ticks_of_over (n : Nat) (t : State) : ticks n ⟨t, none⟩ = ⟨t, none⟩ := by
  induction n with
  | zero => rfl
  | succ n ih => exact ih

/-- A command that ends after `n` micro-steps is still over after more. -/
theorem EndsAfter.ticks_of_le {m n : Nat} {r : Running} {t : State} (h : EndsAfter m r t) (hmn : m ≤ n) :
    ticks n r = ⟨t, none⟩ := by
  rw [← Nat.add_sub_cancel' hmn, ticks_add, h.1, ticks_of_over]

/-! ## Through one compression -/

/-- A micro-step that does not end the compression. -/
theorem tick_of_busy {rest : Rest} {s : State} (h : (microStep s).seq.phase ≠ .idle) :
    tick ⟨s, some rest⟩ = ⟨microStep s, some rest⟩ := if_neg h

/-- The micro-step that ends the compression, and what follows it. -/
theorem tick_of_last {rest : Rest} {s : State} (h : (microStep s).seq.phase = .idle) :
    tick ⟨s, some rest⟩ = resume rest (microStep s) := if_pos h

/-- An idle sequencer has no micro-step. -/
theorem microSteps_of_idle (n : Nat) {s : State} (hs : s.seq.phase = .idle) : microSteps n s = s := by
  have hstep : microStep s = s := by rw [microStep, hs]
  induction n with
  | zero => rfl
  | succ n ih => rw [microSteps, hstep, ih]

/-- A compression is idle at its end and not before, for an idle sequencer does not come to the FOLD of the 114th
micro-step (R89). -/
theorem busy_during_compression (s : State) {n : Nat} (hn : n < compressionSteps) :
    (microSteps n (startCompression s)).seq.phase ≠ .idle := by
  intro hidle
  have hn113 : n + (113 - n) = 113 := Nat.add_sub_cancel' (Nat.le_of_lt_succ hn)
  have hfold := phase_after_last_round s
  rw [← hn113, microSteps_add, microSteps_of_idle _ hidle, hidle] at hfold
  cases hfold

/-- Before the compression is over, what is left of the command waits. -/
theorem ticks_during_compression (rest : Rest) (s : State) {n : Nat} (hn : n < compressionSteps) :
    ticks n ⟨startCompression s, some rest⟩ = ⟨microSteps n (startCompression s), some rest⟩ := by
  induction n with
  | zero => rfl
  | succ n ih =>
    have hbusy := busy_during_compression s hn
    rw [microSteps_succ] at hbusy ⊢
    rw [ticks_succ, ih (Nat.lt_of_succ_lt hn), tick_of_busy hbusy]

/-- With the last micro-step of the compression the command goes on. -/
theorem ticks_compression (rest : Rest) (s : State) :
    ticks compressionSteps ⟨startCompression s, some rest⟩ = resume rest (compression s) := by
  have hlast : compression s = microStep (microSteps 113 (startCompression s)) := microSteps_succ 113 _
  have hidle := (compression_frame s).1
  rw [hlast] at hidle
  rw [show compressionSteps = 113 + 1 from rfl, ticks_succ, ticks_during_compression rest s (by decide),
    tick_of_last hidle, hlast]

/-- A command in a compression takes its 114 micro-steps and then those of what is left. -/
theorem EndsAfter.after_compression {n : Nat} {rest : Rest} {s t : State}
    (h : EndsAfter n (resume rest (compression s)) t) :
    EndsAfter (compressionSteps + n) ⟨startCompression s, some rest⟩ t := by
  obtain ⟨hend, hbefore⟩ := h
  refine ⟨by rw [ticks_add, ticks_compression, hend], fun k hk => ?_⟩
  by_cases hin : k < compressionSteps
  · rw [ticks_during_compression rest s hin]
    exact Option.some_ne_none rest
  · rw [← Nat.add_sub_cancel' (Nat.le_of_not_lt hin), ticks_add, ticks_compression]
    exact hbefore (k - compressionSteps) (by omega)

/-! ## The commands that compress -/

/-- ABSORB's loop compresses once if its bytes fill BUF, and else not at all (R105). -/
theorem absorbRun_endsAfter {n : Nat} (k : Nat) {s : State} (hn : n ≤ 64) :
    EndsAfter (if 64 ≤ s.bcnt.toNat + n then 114 else 0) (absorbRun n k s) (absorbBytes n k s) := by
  induction n generalizing k s with
  | zero =>
    rw [if_neg (by omega)]
    exact .over s
  | succ n ih =>
    by_cases hfull : s.bcnt = 63#6
    · have hbyte : absorbByte k s = clearCount (compression (putByte (lane s.din k) s)) := if_pos hfull
      have hrest := ih (k + 1) (s := absorbByte k s) (by omega)
      have hzero : (absorbByte k s).bcnt.toNat = 0 := by simp [hbyte]
      have hcount : s.bcnt.toNat = 63 := by simp [hfull]
      rw [if_neg (by omega), hbyte] at hrest
      rw [absorbRun, if_pos hfull, if_pos (by omega), absorbBytes, hbyte]
      exact .after_compression (n := 0) hrest
    · have hbyte : absorbByte k s = countByte (putByte (lane s.din k) s) := if_neg hfull
      have hcount : (absorbByte k s).bcnt.toNat + n = s.bcnt.toNat + (n + 1) := by
        have hopen : s.bcnt.toNat ≠ 63 := fun h => hfull (BitVec.eq_of_toNat_eq h)
        rw [absorbByte_bcnt, BitVec.toNat_add, BitVec.toNat_ofNat]
        omega
      have hrest := ih (k + 1) (s := absorbByte k s) (by omega)
      rw [hcount, hbyte] at hrest
      rw [absorbRun, if_neg hfull, absorbBytes, hbyte]
      exact hrest

/-- FINISH compresses once if the length field fits in the open block, and else twice (R66, R106). -/
theorem finish_endsAfter (s : State) :
    EndsAfter (if s.bcnt.toNat ≤ 55 then 114 else 228)
      (if s.bcnt.toNat ≤ 55 then ⟨startCompression (writeLength (padFirst s)), some .finishLast⟩
        else ⟨startCompression (padFirst s), some .finishSecond⟩) (closeMessage (padtail s)) := by
  by_cases hb : s.bcnt.toNat ≤ 55
  · rw [padtail, if_pos hb, if_pos hb, if_pos hb]
    exact .after_compression (n := 0) (.over _)
  · rw [padtail, if_neg hb, if_neg hb, if_neg hb]
    exact .after_compression (n := 114) (.after_compression (n := 0) (.over _))

/-! ## The checks -/

/-- A command that its checks let go ahead has its effect (R118). -/
theorem command_of_goesAhead {legal : Bool} {error : State → Option ErrorCode} {run : State → State} {s : State}
    (h : (legal && goesAhead error s) = true) : command legal error run s = run s := by
  simp only [goesAhead, Bool.and_eq_true, Bool.not_eq_true', Option.isNone_iff_eq_none] at h
  obtain ⟨rfl, herr, hcheck⟩ := h
  exact command_runs herr hcheck

/-- A command that its checks stop does not come to its effect (R118, R119). -/
theorem command_of_stopped {legal : Bool} {error : State → Option ErrorCode} (run : State → State) {s : State}
    (h : (legal && goesAhead error s) = false) : command legal error run s = command legal error id s := by
  obtain ⟨rfl, hs⟩ | ⟨rfl, herr, hs⟩ | ⟨rfl, herr, code, hcheck, hs⟩ | ⟨rfl, herr, hcheck, _⟩ :=
    command_cases legal error run s
  · exact hs
  · rw [hs, command_gated herr]
  · rw [hs, command_raises herr hcheck]
  · simp [goesAhead, herr, hcheck] at h

/-- The checks in front of a command's effect: a command that they stop takes no micro-step (R133). -/
theorem EndsAfter.checked {legal : Bool} {error : State → Option ErrorCode} {run : State → State} {s : State} {n : Nat}
    {r : Running} (h : (legal && goesAhead error s) = true → EndsAfter n r (run s)) :
    EndsAfter (if legal && goesAhead error s then n else 0)
      (if legal && goesAhead error s then r else ⟨command legal error id s, none⟩) (command legal error run s) := by
  by_cases hc : (legal && goesAhead error s) = true
  · rw [if_pos hc, if_pos hc, command_of_goesAhead hc]
    exact h hc
  · rw [if_neg hc, if_neg hc, command_of_stopped run (Bool.eq_false_iff.mpr hc)]
    exact .over _

/-- ABSORB's number of micro-steps, its checks first (R133). -/
theorem microStepCount_absorb (nb : Nat) (s : State) : microStepCount (.absorb nb) s =
    if decide (1 ≤ nb ∧ nb ≤ 4) && goesAhead (absorbError nb) s then (if 64 ≤ s.bcnt.toNat + nb then 114 else 0)
    else 0 := by
  simp only [microStepCount, Bool.and_eq_true, decide_eq_true_eq, ite_and]

/-- R133: micro-step by micro-step, every command takes its number of micro-steps and ends as in one step. -/
theorem beginCommand_endsAfter {i : Instr} {s t : State} (h : exec i s = .next t) :
    EndsAfter (microStepCount i s) (beginCommand i s) t := by
  cases i with
  | nop => cases h; exact .over _
  | init => cases h; exact .over _
  | absorb nb =>
    cases h
    rw [microStepCount_absorb]
    refine .checked fun hgo => absorbRun_endsAfter 0 ?_
    have hnb : 1 ≤ nb ∧ nb ≤ 4 := of_decide_eq_true (Bool.and_eq_true_iff.mp hgo).1
    omega
  | finish => cases h; exact .checked (legal := true) fun _ => finish_endsAfter s
  | loadh i => cases h; exact .over _
  | loadm j => cases h; exact .over _
  | compress => cases h; exact .checked (legal := true) fun _ => (.after_compression (n := 0) (.over _))

/-- Settles O58 (R133). -/
theorem microStepsRefineTheCommand : Obligations.MicroStepsRefineTheCommand := fun _ _ _ => beginCommand_endsAfter

/-- No command takes more micro-steps than FINISH with two compressions (R134). -/
theorem microStepCount_le (i : Instr) (s : State) : microStepCount i s ≤ 228 := by
  cases i with
  | absorb nb => rw [microStepCount]; split <;> decide
  | finish =>
    rw [microStepCount]
    split
    · split <;> decide
    · decide
  | compress => rw [microStepCount]; split <;> decide
  | _ => exact Nat.zero_le _

/-- Settles O59 (R134): a command that is over after its own number of micro-steps is over after 228. -/
theorem everyCommandEnds : Obligations.EveryCommandEnds := by
  refine ⟨fun i s => ?_, dispatchWord_answers⟩
  obtain ⟨t, ht⟩ := exec_answers i s
  exact ⟨t, ht, (beginCommand_endsAfter ht).ticks_of_le (microStepCount_le i s)⟩

end Sys2Proof.Machine
end

section
/-! PROOFS. Reset at any time (spec/70_reset_and_hazards.md R129, spec/10_state.md R35). -/

namespace Sys2Proof.Machine

/-- A state under reset looks like the reset state but for its waiting events and results (R35, R129; log 20). -/
theorem assertReset_withoutScratch (s : State) : (assertReset s).withoutScratch =
    ({ State.reset with pending := s.pending, results := s.results, resetLine := true } : State).withoutScratch :=
  withoutScratch_eq_iff.mpr (by simp [State.reset])

/-- The assertion of reset is performed at once, in the middle of a compression too (R129; log 18). -/
theorem step_resetAssert {s : State} {es : List HostEvent} (hp : s.pending = .resetAssert :: es) :
    step s = .next (assertReset (s.setPending es)) := by
  by_cases hs : s.seq.phase = .idle
  · exact step_performs hs hp
  · rw [step, serve, if_neg hs, hp]

/-- A command that reset cuts short is performed as the reset of the state it had come to (R129; log 9). -/
theorem step_commandCut {s : State} {c : Word} {n : Nat} {es : List HostEvent} (hs : s.Ready)
    (hp : s.pending = .commandCut c n :: es) : step s = .next (assertReset (cutState c n (s.setPending es))) := by
  rw [step_performs hs.1 hp, perform]
  exact if_neg (by simp [hs.2])

/-- Settles O56 (R35, R129). -/
theorem resetEventRestoresEveryRegister : Obligations.ResetEventRestoresEveryRegister := fun s es hp =>
  ⟨assertReset (s.setPending es), step_resetAssert hp, rfl, assertReset_withoutScratch (s.setPending es)⟩

/-- Settles O57 (R129): the command may have come to any state, but its events and results are those it began with. -/
theorem cutCommandLeavesNoEffect : Obligations.CutCommandLeavesNoEffect := by
  intro s c n es hs hp
  obtain ⟨hpending, hresults⟩ := cutState_queues c n (s.setPending es)
  refine ⟨_, step_commandCut hs hp, rfl, ?_⟩
  rw [assertReset_withoutScratch, hpending, hresults]
  rfl

end Sys2Proof.Machine
end
